-- ==== Sys2Proof/Word.lean ====
section
/-! DEFINITION. The word types of the block (00_scope.md R8, 30_encoding.md R60 and R61). -/

namespace Sys2Proof

/-- A byte operand, a byte register half or a framebuffer byte: `u8` (R8). -/
abbrev Byte := BitVec 8

/-- `u16`: the 16-bit field a port address stands in, and what holds the cursor register (R8, R22, R61). How many of its bits
count is the parameter PORT_WIDTH or CUR_WIDTH (R5). -/
abbrev U16 := BitVec 16

/-- `u32`: a response, or the 32-bit field an offset, a memory address or an `s32` coordinate stands in (R60, R61). How many of
its bits count is the parameter OFFSET_WIDTH, ADDR_WIDTH or COORD_WIDTH (R5). -/
abbrev U32 := BitVec 32

/-- The 88-bit command word, format `CMD` (R60). -/
abbrev CommandWord := BitVec 88

end Sys2Proof
end

