-- ==== Sys2Proof/Syntax.lean ====
section
/-! DEFINITION. The commands of the block: one constructor per row of spec/opcode_table.json (30_encoding.md R62), with the
operands of R61 at the size of their field. -/

namespace Sys2Proof

/-- A command (R62). Each operand is held as its field of the word (R60, R61); it is read at the width a
parameter gives when the command runs (R5; log 24). Every value of every operand is encodable, so
no term of this type is ill formed: the reserved bits of R63 exist only in a command word. -/
inductive Instr where
  /-- IOWRB port, val8 (R90). -/
  | iowrb (port : U16) (val8 : Byte)
  /-- IORDB port (R91). -/
  | iordb (port : U16)
  /-- IOWRW port, val16 (R92). -/
  | iowrw (port : U16) (val16 : U16)
  /-- IORDW port (R93). -/
  | iordw (port : U16)
  /-- MEMWRB addr, val8 (R94). -/
  | memwrb (addr : U32) (val8 : Byte)
  /-- MEMRDB addr (R95). -/
  | memrdb (addr : U32)
  /-- OFFSET col, row (R101). -/
  | offset (col row : U32)
  /-- ROWOF off (R102). -/
  | rowof (off : U32)
  /-- COLOF off (R103). -/
  | colof (off : U32)
  /-- GETCUR (R121). -/
  | getcur
  /-- SETCUR off (R122). -/
  | setcur (off : U32)
  /-- WRCELL off, ch, attr (R140). -/
  | wrcell (off : U32) (ch attr : Byte)
  /-- WRCHAR col, row, ch, attr (R141). -/
  | wrchar (col row : U32) (ch attr : Byte)
  /-- FILL ch, attr (R142). -/
  | fill (ch attr : Byte)
deriving DecidableEq, Repr

end Sys2Proof
end

