-- ==== Sys2Proof/Decode.lean ====
section
/-! DEFINITION. The command word: its fields, the opcode map, the reserved fields, the total decoder and the encoder
(30_encoding.md R60 to R65). -/

namespace Sys2Proof

/-! ## The fields of a command word (R60) -/

/-- OP = w[87:80] (R60). -/
def fieldOp (w : CommandWord) : Byte := w.extractLsb' 80 8

/-- A = w[79:48] (R60). -/
def fieldA (w : CommandWord) : U32 := w.extractLsb' 48 32

/-- B = w[47:16] (R60). -/
def fieldB (w : CommandWord) : U32 := w.extractLsb' 16 32

/-- C = w[15:8] (R60). -/
def fieldC (w : CommandWord) : Byte := w.extractLsb' 8 8

/-- D = w[7:0] (R60). -/
def fieldD (w : CommandWord) : Byte := w.extractLsb' 0 8

/-- The command word with the five fields given, OP uppermost (R60; `{a, b}` of R8). -/
def packWord (op : Byte) (a b : U32) (c d : Byte) : CommandWord := op ++ a ++ b ++ c ++ d

/-- The 16-bit operand in the low half of A or B, `v[15:0]` (R61). -/
def lowHalf (v : U32) : U16 := v.extractLsb' 0 16

/-- The reserved high half of A or B where the operand is 16 bits wide, `v[31:16]` (R61, R63). -/
def highHalf (v : U32) : U16 := v.extractLsb' 16 16

/-- A 16-bit operand placed in A or B with `[31:16] = 0` (R61). -/
def wideHalf (v : U16) : U32 := v.setWidth 32

/-! ## The opcode map (R62) -/

/-- The rows of R62. -/
inductive Opcode where
  | iowrb | iordb | iowrw | iordw | memwrb | memrdb
  | offset | rowof | colof
  | getcur | setcur
  | wrcell | wrchar | fill
deriving DecidableEq, Repr

/-- The OP column of R62. -/
def opcodeNumber : Opcode → Byte
  | .iowrb => 0x01
  | .iordb => 0x02
  | .iowrw => 0x03
  | .iordw => 0x04
  | .memwrb => 0x05
  | .memrdb => 0x06
  | .offset => 0x10
  | .rowof => 0x11
  | .colof => 0x12
  | .getcur => 0x20
  | .setcur => 0x21
  | .wrcell => 0x30
  | .wrchar => 0x31
  | .fill => 0x32

/-- The row an OP value selects, none for a reserved opcode (R62, R64). -/
def opcodeOf (op : Byte) : Option Opcode :=
  match op.toNat with
  | 0x01 => some .iowrb
  | 0x02 => some .iordb
  | 0x03 => some .iowrw
  | 0x04 => some .iordw
  | 0x05 => some .memwrb
  | 0x06 => some .memrdb
  | 0x10 => some .offset
  | 0x11 => some .rowof
  | 0x12 => some .colof
  | 0x20 => some .getcur
  | 0x21 => some .setcur
  | 0x30 => some .wrcell
  | 0x31 => some .wrchar
  | 0x32 => some .fill
  | _ => none

/-- Every reserved field of the row is zero in the word (R63; "Fields used" of R62). -/
def reservedClear (o : Opcode) (w : CommandWord) : Bool :=
  match o with
  | .iowrb => highHalf (fieldA w) == 0 && fieldB w == 0 && fieldD w == 0
  | .iordb => highHalf (fieldA w) == 0 && fieldB w == 0 && fieldC w == 0 && fieldD w == 0
  | .iowrw => highHalf (fieldA w) == 0 && highHalf (fieldB w) == 0 && fieldC w == 0 && fieldD w == 0
  | .iordw => highHalf (fieldA w) == 0 && fieldB w == 0 && fieldC w == 0 && fieldD w == 0
  | .memwrb => fieldB w == 0 && fieldD w == 0
  | .memrdb => fieldB w == 0 && fieldC w == 0 && fieldD w == 0
  | .offset => fieldC w == 0 && fieldD w == 0
  | .rowof => fieldB w == 0 && fieldC w == 0 && fieldD w == 0
  | .colof => fieldB w == 0 && fieldC w == 0 && fieldD w == 0
  | .getcur => fieldA w == 0 && fieldB w == 0 && fieldC w == 0 && fieldD w == 0
  | .setcur => fieldB w == 0 && fieldC w == 0 && fieldD w == 0
  | .wrcell => fieldB w == 0
  | .wrchar => true
  | .fill => fieldA w == 0 && fieldB w == 0

/-- The operands of the row read from the word (R61). -/
def readOperands (o : Opcode) (w : CommandWord) : Instr :=
  match o with
  | .iowrb => .iowrb (lowHalf (fieldA w)) (fieldC w)
  | .iordb => .iordb (lowHalf (fieldA w))
  | .iowrw => .iowrw (lowHalf (fieldA w)) (lowHalf (fieldB w))
  | .iordw => .iordw (lowHalf (fieldA w))
  | .memwrb => .memwrb (fieldA w) (fieldC w)
  | .memrdb => .memrdb (fieldA w)
  | .offset => .offset (fieldA w) (fieldB w)
  | .rowof => .rowof (fieldA w)
  | .colof => .colof (fieldA w)
  | .getcur => .getcur
  | .setcur => .setcur (fieldA w)
  | .wrcell => .wrcell (fieldA w) (fieldC w) (fieldD w)
  | .wrchar => .wrchar (fieldA w) (fieldB w) (fieldC w) (fieldD w)
  | .fill => .fill (fieldC w) (fieldD w)

/-! ## The decoder (R65) -/

/-- Why a command word is no command (R63, R64). -/
inductive DecodeError where
  /-- OP is not in R62 (R64). -/
  | reservedOpcode
  /-- A reserved field of a defined OP is not zero (R63). -/
  | reservedField
deriving DecidableEq, Repr

/-- Decoding, total on every 88-bit word; the opcode check comes before the field check (R65, R183). -/
def decode (w : CommandWord) : Except DecodeError Instr :=
  match opcodeOf (fieldOp w) with
  | none => .error .reservedOpcode
  | some o => if reservedClear o w then .ok (readOperands o w) else .error .reservedField

/-- The word given by the opcode table's numbering: one 88-bit word whose bit 0 is its least significant bit, of which the
table gives the low `nbits` bits and every bit above them is 0 (log 20). -/
def tableWord (nbits w : Nat) : CommandWord := BitVec.ofNat 88 (w % 2 ^ nbits)

/-- The instruction the decoder reads from a word numbered as spec/opcode_table.json numbers it. -/
def decodeTableWord (nbits w : Nat) : Option Instr :=
  match decode (tableWord nbits w) with
  | .ok i => some i
  | .error _ => none

/-! ## The encoder (R60 to R62) -/

/-- The row of R62 a command belongs to. -/
def instrOpcode : Instr → Opcode
  | .iowrb _ _ => .iowrb
  | .iordb _ => .iordb
  | .iowrw _ _ => .iowrw
  | .iordw _ => .iordw
  | .memwrb _ _ => .memwrb
  | .memrdb _ => .memrdb
  | .offset _ _ => .offset
  | .rowof _ => .rowof
  | .colof _ => .colof
  | .getcur => .getcur
  | .setcur _ => .setcur
  | .wrcell _ _ _ => .wrcell
  | .wrchar _ _ _ _ => .wrchar
  | .fill _ _ => .fill

/-- The command word of a command, every reserved field zero (R60 to R63). -/
def encode (i : Instr) : CommandWord :=
  let op := opcodeNumber (instrOpcode i)
  match i with
  | .iowrb port val8 => packWord op (wideHalf port) 0 val8 0
  | .iordb port => packWord op (wideHalf port) 0 0 0
  | .iowrw port val16 => packWord op (wideHalf port) (wideHalf val16) 0 0
  | .iordw port => packWord op (wideHalf port) 0 0 0
  | .memwrb addr val8 => packWord op addr 0 val8 0
  | .memrdb addr => packWord op addr 0 0 0
  | .offset col row => packWord op col row 0 0
  | .rowof off => packWord op off 0 0 0
  | .colof off => packWord op off 0 0 0
  | .getcur => packWord op 0 0 0 0
  | .setcur off => packWord op off 0 0 0
  | .wrcell off ch attr => packWord op off 0 ch attr
  | .wrchar col row ch attr => packWord op col row ch attr
  | .fill ch attr => packWord op 0 0 ch attr

end Sys2Proof
end

