-- ==== Sys2Proof/Config.lean ====
section
/-! DEFINITION. What an implementation fixes and what the spec leaves free: the parameter record of 00_scope.md R5
and the draws fixed at reset of 70_reset_and_hazards.md R200. The default value of each parameter is in
Machine/Parameters.lean. -/

namespace Sys2Proof

/-- The parameters of R5 that the model takes as an argument: every one but COLS, ROWS and CELL_BYTES, which R5 fixes, and
ROW_BYTES and FB_SIZE, which follow from them (assumption log 2; what a width says, log 24). -/
structure Params where
  /-- FB_BASE, the first memory address of the framebuffer (R41). -/
  fbBase : U32
  /-- SEL_PORT, the selector port (R41). -/
  selPort : U16
  /-- DATA_PORT, the data port (R41). -/
  dataPort : U16
  /-- PORT_WIDTH, in bits: how much of a port operand is its address (R40, R61). -/
  portWidth : Nat
  /-- ADDR_WIDTH, in bits: the memory space, and how much of a memory address operand counts (R40, R61). -/
  addrWidth : Nat
  /-- CUR_HI_IDX, the index of the cursor location high register (R23). -/
  curHiIdx : Byte
  /-- CUR_LO_IDX, the index of the cursor location low register (R23). -/
  curLoIdx : Byte
  /-- CUR_WIDTH, in bits: the cursor register (R22, R122). -/
  curWidth : Nat
  /-- CH_NEWLINE (R141). -/
  chNewline : Byte
  /-- CH_NUL (R162). -/
  chNul : Byte
  /-- CH_SPACE (R164). -/
  chSpace : Byte
  /-- DEFAULT_ATTR (R164). -/
  defaultAttr : Byte
  /-- COORD_WIDTH, in bits, two's complement (R8, R61). -/
  coordWidth : Nat
  /-- OFFSET_WIDTH, in bits, unsigned (R8, R61). -/
  offsetWidth : Nat
deriving DecidableEq, Repr

/-- The value of CUR at reset: "any 16-bit value, one 16-bit draw" (R200, 93 U2). FREE VALUE (log 5). -/
opaque Config.resetCur : U16

/-- The value of `FB[i]` at reset: "any value, one draw per byte" (R200, 93 U3). FREE VALUE (log 6). -/
opaque Config.resetFb : Nat → Byte

/-- The value of the OPEN parameter DEFAULT_ATTR (R5, 93 U4). FREE VALUE (log 3). -/
opaque Config.defaultAttr : Byte

/-- The byte a byte operand holds where a response above 0xFF takes its place: R66 lets a response be an operand and states no
byte for such a response. The `k`-th use draws the `k`-th value. FREE VALUE (log 23). -/
opaque Config.freeByte : Nat → Byte

end Sys2Proof
end

