-- ==== Sys2Proof/Machine/Parameters.lean ====
section
/-! DEFINITION. The geometry of the display, the default value of every parameter, and how a field is read at the width a
parameter gives (00_scope.md R5, R6, R8; 30_encoding.md R61). -/

namespace Sys2Proof.Machine

/-- COLS (R5). -/
def cols : Nat := 80

/-- ROWS (R5). -/
def rows : Nat := 25

/-- CELL_BYTES (R5). -/
def cellBytes : Nat := 2

/-- ROW_BYTES = CELL_BYTES × COLS (R5). -/
def rowBytes : Nat := cellBytes * cols

/-- FB_SIZE = 2 × 80 × 25 (R5). -/
def fbSize : Nat := rowBytes * rows

/-- The parameters at the values R5 shows. PRESUMED (log 4): the two indices and the three character codes, which the spec
itself takes from general knowledge (93 G1, G2). FREE VALUE (log 3): DEFAULT_ATTR, which R5 leaves OPEN. -/
def defaultParams : Params where
  fbBase := 0xB8000
  selPort := 0x3D4
  dataPort := 0x3D5
  portWidth := 16
  addrWidth := 32
  curHiIdx := 0x0E
  curLoIdx := 0x0F
  curWidth := 16
  chNewline := 0x0A
  chNul := 0x00
  chSpace := 0x20
  defaultAttr := Config.defaultAttr
  coordWidth := 32
  offsetWidth := 32

/-- `zext_n` of the low `n` bits of a field: read as unsigned (R8). -/
def zextN {w : Nat} (n : Nat) (v : BitVec w) : BitVec w := (v.setWidth n).setWidth w

/-- `sext_n` of the low `n` bits of a field: read as two's complement (R8). -/
def sextN {w : Nat} (n : Nat) (v : BitVec w) : BitVec w := (v.setWidth n).signExtend w

end Sys2Proof.Machine

namespace Sys2Proof

/-- A port operand, `zext_PORT_WIDTH` (R61; log 24). -/
def Params.readPort (p : Params) (port : U16) : U16 := Machine.zextN p.portWidth port

/-- A memory address operand, `zext_ADDR_WIDTH` (R61; log 24). -/
def Params.readAddr (p : Params) (addr : U32) : U32 := Machine.zextN p.addrWidth addr

/-- A coordinate operand, `sext_COORD_WIDTH` (R61; log 24). -/
def Params.readCoord (p : Params) (coord : U32) : U32 := Machine.sextN p.coordWidth coord

/-- An offset operand, `zext_OFFSET_WIDTH` (R61; log 24). -/
def Params.readOffset (p : Params) (off : U32) : U32 := Machine.zextN p.offsetWidth off

/-- What the cursor register keeps of a value, its low CUR_WIDTH bits (R22, R122; log 24). -/
def Params.keepCur (p : Params) (v : U16) : U16 := Machine.zextN p.curWidth v

end Sys2Proof
end

