-- ==== Sys2Proof/Machine/Operands.lean ====
section
/-! DEFINITION. The address calculator over operands already read (30_encoding.md R61; 41_addressing.md R100 to R103, R106):
coordinates are signed, clamped, and only then used; and the two bytes of the cursor. The block has no flags (10_state.md R27). -/

namespace Sys2Proof.Machine

/-- `clamp(v, lo, hi)` (R7). -/
def clamp (v lo hi : Int) : Int := if v < lo then lo else if hi < v then hi else v

/-- `clampCol(c: s32)`, in 0 .. 79 (R100). -/
def clampCol (c : U32) : Nat := (clamp c.toInt 0 ((cols : Int) - 1)).toNat

/-- `clampRow(r: s32)`, in 0 .. 24 (R100). -/
def clampRow (r : U32) : Nat := (clamp r.toInt 0 ((rows : Int) - 1)).toNat

/-- The byte offset of the cell in column `c` and row `r` of the grid (R25, R101). -/
def cellOffset (c r : Nat) : U32 := BitVec.ofNat 32 (cellBytes * (r * cols + c))

/-- OFFSET of a coordinate pair (R101). -/
def offsetOf (col row : U32) : U32 := cellOffset (clampCol col) (clampRow row)

/-- ROWOF of an offset (R102). -/
def rowOf (off : U32) : U32 := BitVec.ofNat 32 (off.toNat / (cellBytes * cols))

/-- COLOF of an offset: "subtracts the row's base offset and divides by 2" (R103). -/
def colOf (off : U32) : U32 :=
  let rowbase := off.toNat / rowBytes * rowBytes
  BitVec.ofNat 32 ((off.toNat - rowbase) / 2)

/-- The next offset after a newline at offset `o`: the start of the row below the clamped row (R141). -/
def newlineOffset (o : U32) : U32 := offsetOf 0 (rowOf o + 1)

/-- An 8-bit response zero-extended to a u32 (R61). -/
def byteResponse (b : Byte) : U32 := b.setWidth 32

/-- The high byte of a 16-bit value, `v[15:8]` (R43). -/
def highByte (v : U16) : Byte := v.extractLsb' 8 8

/-- The low byte of a 16-bit value, `v[7:0]` (R43). -/
def lowByte (v : U16) : Byte := v.extractLsb' 0 8

/-- The cursor offset read from the two cursor bytes, `((hi << 8) | lo) × 2` (R43, R121). -/
def cursorOffset (hi lo : Byte) : U32 := ((hi.setWidth 32 <<< 8) ||| lo.setWidth 32) * 2

/-- The value SETCUR stores, `(off div 2) mod 2^CUR_WIDTH`: R122 writes the 16 of R5 (log 24). -/
def cursorValue (p : Params) (off : U32) : U16 := BitVec.ofNat 16 (off.toNat / 2 % 2 ^ p.curWidth)

end Sys2Proof.Machine
end

