-- ==== Sys2Proof/Machine/HostProgram.lean ====
section
/-! DEFINITION. What the host asks of the block, as plain data: commands and wide memory accesses with the agent that issues
them (20_memory.md R40, R47; 60_exceptions.md R188, R191), response names (30_encoding.md R66), and the host sequences of
45_host_sequences.md (R160 to R164). -/

namespace Sys2Proof.Machine

/-- Who issues a command or an access: the one host, or any other agent (R188; log 16). -/
inductive Agent where
  /-- The host agent. -/
  | host
  /-- Another agent, numbered by the model. -/
  | other (n : Nat)
deriving DecidableEq, Repr

/-- A name for a response: `-> name` of R66. The four `seq` names are those of the pseudocode of R161 and R162. -/
inductive RespName where
  /-- A name of the host's own program. -/
  | named (k : Nat)
  /-- `o` of R161: the cursor offset the coordinates are resolved from. -/
  | seqO
  /-- `c` of R161 and R162: the running column. -/
  | seqC
  /-- `r` of R161 and R162: the running row. -/
  | seqR
  /-- `n` of R161 and R162: the next offset. -/
  | seqN
deriving DecidableEq, Repr

/-- An operand field of the command word (R60). -/
inductive OperandField where
  | a | b | c | d
deriving DecidableEq, Repr

/-- An operand that is a number or a response name (R66). -/
inductive Operand where
  /-- A number. -/
  | lit (v : U32)
  /-- The response of an earlier command. -/
  | resp (n : RespName)
deriving DecidableEq, Repr

/-- What an agent issues. -/
inductive Request where
  /-- The command word `w`, each field listed in `operands` first taking the value of the response named beside it (R66). -/
  | command (w : CommandWord) (operands : List (OperandField × RespName))
  /-- A host memory access at `addr` wider than one byte, which no command spells: it touches `more + 2` bytes (R44, R89). -/
  | wideMem (addr : U32) (more : Nat)
deriving DecidableEq, Repr

/-- One request, who issues it, and the name its response is given, if any (R66, R188). -/
structure Issue where
  agent : Agent
  request : Request
  into : Option RespName
deriving DecidableEq, Repr

/-- A coordinate argument of a host sequence: `Current`, or `At(v)` with `v` an s32 (R160). -/
inductive Coord where
  /-- Use the current cursor position for this axis. -/
  | current
  /-- This coordinate as it is, the bits of an s32. -/
  | at (v : U32)
deriving DecidableEq, Repr

/-- A host sequence (R161 to R164). -/
inductive HostSequence where
  /-- PRINT_CHARACTER(ch, col, row, attr) (R161). -/
  | printCharacter (ch : Byte) (col row : Coord) (attr : Byte)
  /-- PRINT_AT(msg, col, row, attr) (R162). -/
  | printAt (msg : List Byte) (col row : Coord) (attr : Byte)
  /-- PRINT(msg, attr) (R163). -/
  | print (msg : List Byte) (attr : Byte)
  /-- CLEAR() (R164). -/
  | clear
deriving DecidableEq, Repr

/-- One item of the host's program: a request, or a host sequence still to be written out as requests (log 17). -/
inductive HostItem where
  | issue (i : Issue)
  | call (q : HostSequence)
deriving DecidableEq, Repr

end Sys2Proof.Machine
end

