-- ==== Sys2Proof/Machine/State.lean ====
section
/-! DEFINITION. The state of the machine as plain data: the block's own state (10_state.md R20 to R25), the model's fault
record and refusal mark (R29), the response last delivered (R28), the parameters (00_scope.md R5) and the host agent's
program (20_memory.md R47); the state after reset (70_reset_and_hazards.md R200); and the ways a step can stop
(60_exceptions.md R181, R182). -/

namespace Sys2Proof.Machine

/-- The reasons of the fault record (R181). -/
inductive FaultReason where
  /-- Code 1: OP not in R62 (R64). -/
  | reservedOpcode
  /-- Code 2: a reserved field is not zero (R63). -/
  | reservedField
  /-- Code 3: a data-port access while SEL is unset (R81, R83). -/
  | selectorUnset
  /-- Code 4: a cell write at an odd offset or above 3998 (R140). -/
  | cellOffsetInvalid
deriving DecidableEq, Repr

/-- The reasons of the refusal mark (R182). -/
inductive RefusalReason where
  /-- Code 101: the port is neither SEL_PORT nor DATA_PORT (R86). -/
  | unclaimedPort
  /-- Code 102: a byte read of SEL_PORT (R84). -/
  | selectorRead
  /-- Code 103: a data-port access while SEL names no cursor register (R85). -/
  | otherControllerRegister
  /-- Code 104: a word access to SEL_PORT or DATA_PORT (R86). -/
  | wordPortAccess
  /-- Code 105: a memory access outside the framebuffer (R89). -/
  | outsideFramebuffer
  /-- Code 106: a memory access wider than a byte (R89). -/
  | wideMemoryAccess
  /-- Code 107: a command of an agent other than the host (R188). -/
  | secondAgent
deriving DecidableEq, Repr

/-- One entry of the fault record: the reason, the command word, and for CellOffsetInvalid the offset (R181, "recorded"). -/
structure FaultEntry where
  reason : FaultReason
  word : CommandWord
  off : Option U32
deriving DecidableEq, Repr

/-- The framebuffer as (offset, byte) pairs, at strictly rising offsets, none equal to the byte's reset draw (R24, R200;
log 6, 14). -/
abbrev Memory := List Host.Cell

/-- The machine. `sel`, `cur` and `fb` are the whole of the block's hardware state (R20). -/
structure State where
  /-- The parameters, which no step writes (R5; "fixed for a run", 92 D7). -/
  params : Params
  /-- SEL; none is the mark `unset` (R21). -/
  sel : Option Byte
  /-- CUR, a cell index of CUR_WIDTH bits (R5, R22). -/
  cur : U16
  /-- FB (R24). -/
  fb : Memory
  /-- The fault record (R29, R181). -/
  faults : List FaultEntry
  /-- The refusal mark (R29, R182). -/
  refusals : List RefusalReason
  /-- The response the last completed command delivered, none where it delivers none (R28). The model's own field
  (log 1). -/
  response : Option U32
  /-- The host's program: what it has still to issue, in issue order (R47). The model's own field (log 1, 10). -/
  pending : List HostItem
  /-- The responses the host has given a name (R66). The model's own field (log 1). -/
  names : List (RespName × U32)
  /-- How many free bytes have been drawn (R66). The model's own field (log 23). -/
  drawn : Nat
deriving DecidableEq, Repr

/-- The state at the start of a run with the parameters given (R5, R200, R201): SEL unset, both records empty, CUR and every
framebuffer byte at its draw (an empty `fb` reads as the draws), nothing issued yet. -/
def State.resetWith (p : Params) : State where
  params := p
  sel := none
  cur := p.keepCur Config.resetCur
  fb := []
  faults := []
  refusals := []
  response := none
  pending := []
  names := []
  drawn := 0

/-- The state at the start of a run with every parameter at its default (R5, R200). -/
def State.reset : State := State.resetWith defaultParams

/-- The fault outcome, with the state the stop leaves: the fault record extended, SEL, CUR and FB as before (R181, R184;
log 7). -/
inductive Fault where
  /-- ReservedOpcode. Raised by the step that decodes a word whose OP is not in R62 (R64). Safe: the model stops. -/
  | reservedOpcode (left : State)
  /-- ReservedField. Raised by the step that decodes a word with a non-zero reserved field (R63). Safe: the model stops. -/
  | reservedField (left : State)
  /-- SelectorUnset. Raised by IOWRB and IORDB on DATA_PORT while SEL is unset (R81, R83). Safe: the model stops. -/
  | selectorUnset (left : State)
  /-- CellOffsetInvalid. Raised by WRCELL at an odd offset or above 3998 (R140). Safe: the model stops. -/
  | cellOffsetInvalid (left : State)
  /-- Raised by a step from a state whose fault record or refusal mark is not empty: no further command is taken, and the
  state is left as it is (R184). Safe: the model stops. -/
  | quiescent (left : State)
deriving DecidableEq, Repr

/-- The refusal outcome, with the state the stop leaves: the refusal mark extended, SEL, CUR and FB as before (R182; log 7). -/
inductive Refusal where
  /-- UnclaimedPort. Raised by the four port commands on any other port (R86). Safe: the model stops. -/
  | unclaimedPort (left : State)
  /-- SelectorRead. Raised by IORDB on SEL_PORT (R84). Safe: the model stops. -/
  | selectorRead (left : State)
  /-- OtherControllerRegister. Raised by IOWRB and IORDB on DATA_PORT while SEL names no cursor register (R85). Safe: the
  model stops. -/
  | otherControllerRegister (left : State)
  /-- WordPortAccess. Raised by IOWRW and IORDW on SEL_PORT and DATA_PORT (R86, R92, R93). Safe: the model stops. -/
  | wordPortAccess (left : State)
  /-- OutsideFramebuffer. Raised by MEMWRB and MEMRDB outside the region (R89). Safe: the model stops. -/
  | outsideFramebuffer (left : State)
  /-- WideMemoryAccess. Raised by a memory access wider than a byte, wherever it lies (R89, R182). Safe: the model stops. -/
  | wideMemoryAccess (left : State)
  /-- SecondAgent. Raised by the step that takes a request of an agent other than the host (R188). Safe: the model stops. -/
  | secondAgent (left : State)
  /-- Raised by the step that would write out a PRINT or PRINT_AT whose message has no CH_NUL: "such a message cannot be passed"
  (93 U27). The host issues nothing, the call stays the next item and the refusal mark is unchanged (log 12). Safe: the model
  stops. -/
  | unterminatedMessage (left : State)
  /-- Raised by the step that would assemble a command with a response name that no command has given (R66). The host issues
  nothing, the request stays the next item and the refusal mark is unchanged (log 11). Safe: the model stops. -/
  | unboundResponse (left : State)
  /-- Raised by an arm of `exec` whose instruction has no meaning yet. No arm of this model answers it. Safe: the model
  stops. -/
  | notModelled (mnemonic : String)
deriving DecidableEq, Repr

/-- The three outcomes of a step or a command (R9, R180 to R182). -/
abbrev Result := Host.Outcome State Fault Refusal

end Sys2Proof.Machine
end

