-- ==== Sys2Proof/Machine/Ops.lean ====
section
/-! DEFINITION. The named operations over the state: framebuffer bytes, the port and memory reactions of 40_bus_access.md
(R80 to R89), the cell write (43_cell_writer.md R140), and the fault and refusal outcomes as ONE shared operation each
(60_exceptions.md R181, R182, R184). -/

namespace Sys2Proof.Machine

/-! ## The framebuffer (R24) -/

/-- What offset `i` reads as while no entry lists it: the draw fixed at reset (R95, R200; log 6). -/
def unlisted (i : Nat) : Byte := Config.resetFb i

/-- `FB[i]` (R24): the last value written, or the reset value if there was none (R47). -/
def Memory.read : Memory → Nat → Byte
  | [], i => unlisted i
  | (j, v) :: m, i => if i = j then v else Memory.read m i

/-- No entry for `i` any more, so that it reads as its draw again. -/
def Memory.erase : Memory → Nat → Memory
  | [], _ => []
  | (j, x) :: m, i => if i = j then m else (j, x) :: Memory.erase m i

/-- The entry `(i, v)` at its place in the rising order, instead of any entry for `i`. -/
def Memory.insert : Memory → Nat → Byte → Memory
  | [], i, v => [(i, v)]
  | (j, x) :: m, i, v =>
    if i < j then (i, v) :: (j, x) :: m
    else if i = j then (i, v) :: m
    else (j, x) :: Memory.insert m i v

/-- `FB[i] <- v` (R24), keeping the canonical form: the value an unlisted offset reads as is not listed. -/
def Memory.write (m : Memory) (i : Nat) (v : Byte) : Memory :=
  if v = unlisted i then m.erase i else m.insert i v

/-- The canonical form: offsets strictly rising and inside the 4000 bytes of R24, no entry equal to what an unlisted offset
reads as. -/
abbrev Memory.wf (m : Memory) : Prop :=
  m.Pairwise (fun a b => a.1 < b.1) ∧ ∀ c ∈ m, c.1 < fbSize ∧ c.2 ≠ unlisted c.1

/-- `FB[i]` of a state (R9). -/
def State.readFb (s : State) (i : Nat) : Byte := s.fb.read i

/-- `FB[i] <- v` (R9). -/
def State.writeFb (s : State) (i : Nat) (v : Byte) : State := { s with fb := s.fb.write i v }

/-! ## How a command stops (R9, R181, R182) -/

/-- `raise Fault(reason)`, with the offset the record holds for CellOffsetInvalid, or `refuse(reason)` (R9, R181). -/
inductive Stop where
  | fault (reason : FaultReason) (off : Option U32)
  | refuse (reason : RefusalReason)
deriving DecidableEq, Repr

/-- The number the spec gives a fault reason (R181, "code"). -/
def FaultReason.code : FaultReason → Nat
  | .reservedOpcode => 1
  | .reservedField => 2
  | .selectorUnset => 3
  | .cellOffsetInvalid => 4

/-- The number the spec gives a refusal reason (R182, "code"). -/
def RefusalReason.code : RefusalReason → Nat
  | .unclaimedPort => 101
  | .selectorRead => 102
  | .otherControllerRegister => 103
  | .wordPortAccess => 104
  | .outsideFramebuffer => 105
  | .wideMemoryAccess => 106
  | .secondAgent => 107

/-- The state a fault leaves: its reason and record appended to the fault record, all else as it was (R181, R184). -/
def State.recordFault (s : State) (reason : FaultReason) (word : CommandWord) (off : Option U32) : State :=
  { s with faults := s.faults ++ [{ reason := reason, word := word, off := off }] }

/-- The state a refusal leaves: its reason appended to the refusal mark, all else as it was (R182). -/
def State.recordRefusal (s : State) (reason : RefusalReason) : State :=
  { s with refusals := s.refusals ++ [reason] }

/-- End the command word `word` in the fault outcome (R9, R181). -/
def raiseFault (reason : FaultReason) (word : CommandWord) (off : Option U32) (s : State) : Result :=
  let left := s.recordFault reason word off
  match reason with
  | .reservedOpcode => .fault (.reservedOpcode left)
  | .reservedField => .fault (.reservedField left)
  | .selectorUnset => .fault (.selectorUnset left)
  | .cellOffsetInvalid => .fault (.cellOffsetInvalid left)

/-- End a command or an access in the refusal outcome (R9, R182). -/
def refuse (reason : RefusalReason) (s : State) : Result :=
  let left := s.recordRefusal reason
  match reason with
  | .unclaimedPort => .refused (.unclaimedPort left)
  | .selectorRead => .refused (.selectorRead left)
  | .otherControllerRegister => .refused (.otherControllerRegister left)
  | .wordPortAccess => .refused (.wordPortAccess left)
  | .outsideFramebuffer => .refused (.outsideFramebuffer left)
  | .wideMemoryAccess => .refused (.wideMemoryAccess left)
  | .secondAgent => .refused (.secondAgent left)

/-- End a command or an access at a stop, in the state it began in (R181, R182: a stopped command changes none of SEL, CUR
and FB). -/
def stopWith (word : CommandWord) (s : State) : Stop → Result
  | .fault reason off => raiseFault reason word off s
  | .refuse reason => refuse reason s

/-- How the command word `word` issued in `s` ends: with the state its rule gives and its response delivered (R28), or at a
stop. -/
def conclude (word : CommandWord) (s : State) : Except Stop (State × Option U32) → Result
  | .ok (t, resp) => .next { t with response := resp }
  | .error e => stopWith word s e

/-- A command that delivers no response (R28, R62). -/
def noResponse : Except Stop State → Except Stop (State × Option U32)
  | .ok t => .ok (t, none)
  | .error e => .error e

/-- `result <- v`, all state as it is in `s` (R9, R28). -/
def respond (s : State) (v : U32) : Except Stop (State × Option U32) := .ok (s, some v)

/-- `result <- zext_32(byte)`, all state as it is in `s` (R91, R95). -/
def respondByte (s : State) : Except Stop Byte → Except Stop (State × Option U32)
  | .ok b => respond s (byteResponse b)
  | .error e => .error e

/-! ## Port reactions (R80 to R86) -/

/-- `DataWrite(v)`: the byte of CUR that SEL names, as far as the register is wide (R5, R81). -/
def dataWrite (v : Byte) (s : State) : Except Stop State :=
  match s.sel with
  | none => .error (.fault .selectorUnset none)
  | some i =>
    if i = s.params.curHiIdx then .ok { s with cur := s.params.keepCur (v ++ lowByte s.cur) }
    else if i = s.params.curLoIdx then .ok { s with cur := s.params.keepCur (highByte s.cur ++ v) }
    else .error (.refuse .otherControllerRegister)

/-- `DataRead()` (R83). -/
def dataRead (s : State) : Except Stop Byte :=
  match s.sel with
  | none => .error (.fault .selectorUnset none)
  | some i =>
    if i = s.params.curHiIdx then .ok (highByte s.cur)
    else if i = s.params.curLoIdx then .ok (lowByte s.cur)
    else .error (.refuse .otherControllerRegister)

/-- `PortWrite8(p, v)` (R80). -/
def portWrite8 (p : U16) (v : Byte) (s : State) : Except Stop State :=
  if p = s.params.selPort then .ok { s with sel := some v }
  else if p = s.params.dataPort then dataWrite v s
  else .error (.refuse .unclaimedPort)

/-- `PortRead8(p)` (R82). -/
def portRead8 (p : U16) (s : State) : Except Stop Byte :=
  if p = s.params.dataPort then dataRead s
  else if p = s.params.selPort then .error (.refuse .selectorRead)
  else .error (.refuse .unclaimedPort)

/-- A 16-bit access to port `p`, read or write (R86, R92, R93). -/
def portAccess16 (p : U16) (s : State) : Stop :=
  if p = s.params.selPort ∨ p = s.params.dataPort then .refuse .wordPortAccess else .refuse .unclaimedPort

/-! ## Framebuffer reactions (R87 to R89) -/

/-- All of the `n` bytes from memory address `a` lie in FB_BASE .. FB_BASE + 3999 (R41, R89). -/
abbrev State.inFramebuffer (s : State) (a : U32) (n : Nat) : Prop :=
  s.params.fbBase.toNat ≤ a.toNat ∧ a.toNat + n ≤ s.params.fbBase.toNat + fbSize

/-- The byte access at memory address `a`: its offset in FB, or why it is refused (R87 to R89). -/
def fbIndex (a : U32) (s : State) : Except Stop Nat :=
  if s.inFramebuffer a 1 then .ok (a.toNat - s.params.fbBase.toNat)
  else .error (.refuse .outsideFramebuffer)

/-- Why an access of `more + 2` bytes at memory address `a` is refused: "always" for its width (R182 code 106, R89), wherever
it lies. DEDUCED (log 13). -/
def wideAccess (_a : U32) (_more : Nat) (_s : State) : RefusalReason := .wideMemoryAccess

/-- `MemWrite(a, 1, v)` (R87). -/
def memWrite (a : U32) (v : Byte) (s : State) : Except Stop State :=
  match fbIndex a s with
  | .ok i => .ok (s.writeFb i v)
  | .error e => .error e

/-- `MemRead(a, 1)` (R88). -/
def memRead (a : U32) (s : State) : Except Stop Byte :=
  match fbIndex a s with
  | .ok i => .ok (s.readFb i)
  | .error e => .error e

/-! ## Cell writes (R140, R142) -/

/-- The two byte writes of a cell at offset `off`: the character byte first, then the attribute byte (R42, R140). -/
def Memory.putCell (m : Memory) (off : U32) (ch attr : Byte) : Memory :=
  (m.write off.toNat ch).write (off.toNat + 1) attr

/-- The first `n` cells written one after the other, cell `k` being the one in column `k mod COLS` of row `k div COLS`: the
row-major order of R142 (R25). -/
def Memory.fillCells (m : Memory) (ch attr : Byte) : Nat → Memory
  | 0 => m
  | k + 1 => (Memory.fillCells m ch attr k).putCell (cellOffset (k % cols) (k / cols)) ch attr

/-- A cell write on the state (R140). -/
def State.putCell (s : State) (off : U32) (ch attr : Byte) : State := { s with fb := s.fb.putCell off ch attr }

/-- A write of every cell of the grid, row-major (R142). -/
def State.fillGrid (s : State) (ch attr : Byte) : State := { s with fb := s.fb.fillCells ch attr (rows * cols) }

/-- WRCELL's check and writes (R140). -/
def writeCell (off : U32) (ch attr : Byte) (s : State) : Except Stop State :=
  if off.toNat % 2 ≠ 0 ∨ 3998 < off.toNat then .error (.fault .cellOffsetInvalid (some off))
  else .ok (s.putCell off ch attr)

end Sys2Proof.Machine
end

