-- ==== Sys2Proof/Machine/Addressing.lean ====
section
/-! DEFINITION. The address calculator's commands: "pure, stateless coordinate math" (41_addressing.md R101 to R103), their
operands read at COORD_WIDTH and OFFSET_WIDTH (00_scope.md R5; 30_encoding.md R61). -/

namespace Sys2Proof.Machine

/-- OFFSET col, row (R101). -/
def execOffset (col row : U32) (s : State) : Result :=
  conclude (encode (.offset col row)) s (respond s (offsetOf (s.params.readCoord col) (s.params.readCoord row)))

/-- ROWOF off (R102). -/
def execRowof (off : U32) (s : State) : Result :=
  conclude (encode (.rowof off)) s (respond s (rowOf (s.params.readOffset off)))

/-- COLOF off (R103). -/
def execColof (off : U32) (s : State) : Result :=
  conclude (encode (.colof off)) s (respond s (colOf (s.params.readOffset off)))

end Sys2Proof.Machine
end

