-- ==== Sys2Proof/Machine/Bus.lean ====
section
/-! DEFINITION. The bus commands (40_bus_access.md R90 to R95), their ports and addresses read at PORT_WIDTH and ADDR_WIDTH
(00_scope.md R5; 30_encoding.md R61). -/

namespace Sys2Proof.Machine

/-- IOWRB port, val8: `PortWrite8(port, val8)` (R90). -/
def execIowrb (port : U16) (val8 : Byte) (s : State) : Result :=
  conclude (encode (.iowrb port val8)) s (noResponse (portWrite8 (s.params.readPort port) val8 s))

/-- IORDB port: `result <- zext_32(PortRead8(port))` (R91). -/
def execIordb (port : U16) (s : State) : Result :=
  conclude (encode (.iordb port)) s (respondByte s (portRead8 (s.params.readPort port) s))

/-- IOWRW port, val16: "every IOWRW is refused" (R92). -/
def execIowrw (port : U16) (val16 : U16) (s : State) : Result :=
  stopWith (encode (.iowrw port val16)) s (portAccess16 (s.params.readPort port) s)

/-- IORDW port: "every IORDW is refused" (R93). -/
def execIordw (port : U16) (s : State) : Result :=
  stopWith (encode (.iordw port)) s (portAccess16 (s.params.readPort port) s)

/-- MEMWRB addr, val8: `MemWrite(addr, 1, val8)` (R94). -/
def execMemwrb (addr : U32) (val8 : Byte) (s : State) : Result :=
  conclude (encode (.memwrb addr val8)) s (noResponse (memWrite (s.params.readAddr addr) val8 s))

/-- MEMRDB addr: `result <- zext_32(MemRead(addr, 1))` (R95). -/
def execMemrdb (addr : U32) (s : State) : Result :=
  conclude (encode (.memrdb addr)) s (respondByte s (memRead (s.params.readAddr addr) s))

end Sys2Proof.Machine
end

