-- ==== Sys2Proof/Machine/CellWriter.lean ====
section
/-! DEFINITION. The character-cell writer's commands (43_cell_writer.md R140 to R142). -/

namespace Sys2Proof.Machine

/-- OFFSET then, unless the character is CH_NEWLINE, WRCELL; the response is the next offset (R141, R67). -/
def writeCharacter (col row : U32) (ch attr : Byte) (s : State) : Except Stop (State × Option U32) :=
  let o := offsetOf col row
  if ch = s.params.chNewline then respond s (newlineOffset o)
  else
    match writeCell o ch attr s with
    | .error e => .error e
    | .ok t => respond t (o + 2)

/-- WRCELL off, ch, attr (R140). -/
def execWrcell (off : U32) (ch attr : Byte) (s : State) : Result :=
  conclude (encode (.wrcell off ch attr)) s (noResponse (writeCell (s.params.readOffset off) ch attr s))

/-- WRCHAR col, row, ch, attr (R141). -/
def execWrchar (col row : U32) (ch attr : Byte) (s : State) : Result :=
  conclude (encode (.wrchar col row ch attr)) s (writeCharacter (s.params.readCoord col) (s.params.readCoord row) ch attr s)

/-- FILL ch, attr: every cell of the grid in row-major order (R142). -/
def execFill (ch attr : Byte) (s : State) : Result :=
  conclude (encode (.fill ch attr)) s (noResponse (.ok (s.fillGrid ch attr)))

end Sys2Proof.Machine
end

