-- ==== Sys2Proof/Machine/Cursor.lean ====
section
/-! DEFINITION. The cursor register's commands, each the series of port accesses the spec expands it to, done as one step
(42_cursor.md R121, R122; 30_encoding.md R67). -/

namespace Sys2Proof.Machine

/-- Select the controller register `idx`, then read the data port (R204: "Selector and data go in pairs"). -/
def selectRead (idx : Byte) (s : State) : Except Stop (State × Byte) :=
  match portWrite8 s.params.selPort idx s with
  | .error e => .error e
  | .ok t =>
    match portRead8 s.params.dataPort t with
    | .error e => .error e
    | .ok b => .ok (t, b)

/-- Select the controller register `idx`, then write the data port (R204). -/
def selectWrite (idx v : Byte) (s : State) : Except Stop State :=
  match portWrite8 s.params.selPort idx s with
  | .error e => .error e
  | .ok t => portWrite8 s.params.dataPort v t

/-- The four port accesses of GETCUR: the low byte's pair, then the high byte's (R121). -/
def getCursor (s : State) : Except Stop (State × Option U32) :=
  match selectRead s.params.curLoIdx s with
  | .error e => .error e
  | .ok (t, lo) =>
    match selectRead s.params.curHiIdx t with
    | .error e => .error e
    | .ok (u, hi) => respond u (cursorOffset hi lo)

/-- The four port writes of SETCUR: the high byte's pair, then the low byte's (R122). -/
def setCursor (off : U32) (s : State) : Except Stop State :=
  match selectWrite s.params.curHiIdx (highByte (cursorValue s.params off)) s with
  | .error e => .error e
  | .ok t => selectWrite s.params.curLoIdx (lowByte (cursorValue s.params off)) t

/-- GETCUR (R121). -/
def execGetcur (s : State) : Result :=
  conclude (encode .getcur) s (getCursor s)

/-- SETCUR off (R122). -/
def execSetcur (off : U32) (s : State) : Result :=
  conclude (encode (.setcur off)) s (noResponse (setCursor (s.params.readOffset off) s))

end Sys2Proof.Machine
end

