-- ==== Sys2Proof/Machine/Dispatch.lean ====
section
/-! DEFINITION. One arm per command of 30_encoding.md R62. -/

namespace Sys2Proof.Machine

def exec (i : Instr) (s : State) : Host.Outcome State Fault Refusal :=
  match i with
  | .iowrb port val8 => Sys2Proof.Machine.execIowrb port val8 s
  | .iordb port => Sys2Proof.Machine.execIordb port s
  | .iowrw port val16 => Sys2Proof.Machine.execIowrw port val16 s
  | .iordw port => Sys2Proof.Machine.execIordw port s
  | .memwrb addr val8 => Sys2Proof.Machine.execMemwrb addr val8 s
  | .memrdb addr => Sys2Proof.Machine.execMemrdb addr s
  | .offset col row => Sys2Proof.Machine.execOffset col row s
  | .rowof off => Sys2Proof.Machine.execRowof off s
  | .colof off => Sys2Proof.Machine.execColof off s
  | .getcur => Sys2Proof.Machine.execGetcur s
  | .setcur off => Sys2Proof.Machine.execSetcur off s
  | .wrcell off ch attr => Sys2Proof.Machine.execWrcell off ch attr s
  | .wrchar col row ch attr => Sys2Proof.Machine.execWrchar col row ch attr s
  | .fill ch attr => Sys2Proof.Machine.execFill ch attr s

end Sys2Proof.Machine
end

