-- ==== Sys2Proof/Machine/Sequences.lean ====
section
/-! DEFINITION. The source's Print API written out as the requests the host issues, one command each (45_host_sequences.md
R160 to R164). The response names o, c, r and n are those of the pseudocode. -/

namespace Sys2Proof.Machine

/-- The host issues the command `i`, the fields listed taking the responses named, its response named `into` (R66). -/
def hostCommand (i : Instr) (operands : List (OperandField × RespName)) (into : Option RespName) : HostItem :=
  .issue { agent := .host, request := .command (encode i) operands, into := into }

/-- The number an operand stands for in the word, 0 where a response takes its place (R66). -/
def Operand.literal : Operand → U32
  | .lit v => v
  | .resp _ => 0

/-- The response that takes the operand's place, if any (R66). -/
def Operand.into (f : OperandField) : Operand → List (OperandField × RespName)
  | .lit _ => []
  | .resp n => [(f, n)]

/-- `GETCUR -> o`. -/
def issueGetcur : HostItem := hostCommand .getcur [] (some .seqO)

/-- `COLOF x -> c`. -/
def issueColof (x : RespName) : HostItem := hostCommand (.colof 0) [(.a, x)] (some .seqC)

/-- `ROWOF x -> r`. -/
def issueRowof (x : RespName) : HostItem := hostCommand (.rowof 0) [(.a, x)] (some .seqR)

/-- `WRCHAR c, r, ch, attr -> n`. -/
def issueWrchar (c r : Operand) (ch attr : Byte) : HostItem :=
  hostCommand (.wrchar c.literal r.literal ch attr) (c.into .a ++ r.into .b) (some .seqN)

/-- `SETCUR n`. -/
def issueSetcur : HostItem := hostCommand (.setcur 0) [(.a, .seqN)] none

/-- The column operand a column argument resolves to (R161). -/
def columnOperand : Coord → Operand
  | .current => .resp .seqC
  | .at v => .lit v

/-- The row operand a row argument resolves to (R161). -/
def rowOperand : Coord → Operand
  | .current => .resp .seqR
  | .at v => .lit v

/-- The commands that resolve the coordinates: one GETCUR if either is Current, then COLOF for a Current column and ROWOF for
a Current row; none if both are explicit (R161, 92 D20). -/
def resolveCoords : Coord → Coord → List HostItem
  | .current, .current => [issueGetcur, issueColof .seqO, issueRowof .seqO]
  | .current, .at _ => [issueGetcur, issueColof .seqO]
  | .at _, .current => [issueGetcur, issueRowof .seqO]
  | .at _, .at _ => []

/-- PRINT_CHARACTER: its return value is the response named `n` (R161). -/
def printCharacter (ch : Byte) (col row : Coord) (attr : Byte) : List HostItem :=
  resolveCoords col row ++ [issueWrchar (columnOperand col) (rowOperand row) ch attr, issueSetcur]

/-- The loop of PRINT_AT from the running column and row operands, over the characters before CH_NUL (R162). -/
def printLoop (attr : Byte) (c r : Operand) : List Byte → List HostItem
  | [] => []
  | ch :: rest =>
    [issueWrchar c r ch attr, issueSetcur, issueColof .seqN, issueRowof .seqN]
      ++ printLoop attr (.resp .seqC) (.resp .seqR) rest

/-- PRINT_AT: resolve once, then one iteration per character up to and not including the first CH_NUL; none for a message
that has no CH_NUL, which cannot be passed (R162, 93 U27). -/
def printAt (p : Params) (msg : List Byte) (col row : Coord) (attr : Byte) : Option (List HostItem) :=
  if msg.contains p.chNul then
    some (resolveCoords col row
      ++ printLoop attr (columnOperand col) (rowOperand row) (msg.takeWhile fun b => b != p.chNul))
  else none

/-- CLEAR (R164). -/
def clearDisplay (p : Params) : List HostItem :=
  [hostCommand (.fill p.chSpace p.defaultAttr) [] none, hostCommand (.setcur 0) [] none]

/-- A host sequence written out; PRINT(msg, attr) is PRINT_AT(msg, Current, Current, attr) (R161 to R164). -/
def expandSequence (p : Params) : HostSequence → Option (List HostItem)
  | .printCharacter ch col row attr => some (printCharacter ch col row attr)
  | .printAt msg col row attr => printAt p msg col row attr
  | .print msg attr => printAt p msg .current .current attr
  | .clear => some (clearDisplay p)

end Sys2Proof.Machine
end

