-- ==== Sys2Proof/Machine/Issue.lean ====
section
/-! DEFINITION. How one item of the host's program is taken: response names become operands (30_encoding.md R66), the word is
decoded before anything else is checked (R65; 60_exceptions.md R183), a second agent is refused (R188), and the command then
takes effect as one step (20_memory.md R47, R49). -/

namespace Sys2Proof.Machine

/-- The response the host gave a name, none if no command has given it (R66). -/
def lookupName : List (RespName × U32) → RespName → Option U32
  | [], _ => none
  | (m, v) :: rest, n => if n = m then some v else lookupName rest n

/-- Give a response a name: a later `-> name` replaces an earlier one (R66; the loop of R162). -/
def bindName (names : List (RespName × U32)) (n : RespName) (v : U32) : List (RespName × U32) :=
  (n, v) :: names.filter fun e => e.1 != n

/-- The byte a byte field takes from the response `v`: `v` itself up to 0xFF, else the free byte `free` (R60, R66; log 23). -/
def responseByte (v : U32) (free : Byte) : Byte := if v.toNat < 256 then v.setWidth 8 else free

/-- The word with one field taking the response `v` (R60, R61, R66). -/
def setField (w : CommandWord) (f : OperandField) (v : U32) (free : Byte) : CommandWord :=
  match f with
  | .a => packWord (fieldOp w) v (fieldB w) (fieldC w) (fieldD w)
  | .b => packWord (fieldOp w) (fieldA w) v (fieldC w) (fieldD w)
  | .c => packWord (fieldOp w) (fieldA w) (fieldB w) (responseByte v free) (fieldD w)
  | .d => packWord (fieldOp w) (fieldA w) (fieldB w) (fieldC w) (responseByte v free)

/-- How many free bytes a field draws from the response `v`: one where it is a byte field and `v` is above 0xFF (log 23). -/
def drawsFor (f : OperandField) (v : U32) : Nat :=
  match f with
  | .a => 0
  | .b => 0
  | .c => if v.toNat < 256 then 0 else 1
  | .d => if v.toNat < 256 then 0 else 1

/-- The word an agent issues, each listed field taking the value of the response named beside it, and the free bytes drawn so
far; none where a name is one that no command has given (R66; log 11). -/
def assemble (names : List (RespName × U32)) (w : CommandWord) (drawn : Nat) :
    List (OperandField × RespName) → Option (CommandWord × Nat)
  | [] => some (w, drawn)
  | (f, n) :: rest =>
    match lookupName names n with
    | none => none
    | some v => assemble names (setField w f v (Config.freeByte drawn)) (drawn + drawsFor f v) rest

/-- The host names the response a completed command delivered, if it asked for a name (R66; log 18). -/
def nameResponse (into : Option RespName) : Result → Result
  | .next t =>
    match into, t.response with
    | some n, some v => .next { t with names := bindName t.names n v }
    | _, _ => .next t
  | .fault f => .fault f
  | .refused r => .refused r

/-- An agent issues a command word: decode, then the agent check, then the command (R65, R183, R188). -/
def issueWord (agent : Agent) (w : CommandWord) (s : State) : Result :=
  match decode w with
  | .error .reservedOpcode => raiseFault .reservedOpcode w none s
  | .error .reservedField => raiseFault .reservedField w none s
  | .ok i =>
    match agent with
    | .host => exec i s
    | .other _ => refuse .secondAgent s

/-- An agent makes a memory access wider than a byte, which is always refused (R44, R89, R188). -/
def issueWideMem (agent : Agent) (addr : U32) (more : Nat) (s : State) : Result :=
  match agent with
  | .host => refuse (wideAccess addr more s) s
  | .other _ => refuse .secondAgent s

/-- One request of an agent (R47, R191). The word is assembled before anything else is checked, for another agent as for the
host and from the one list of names, so a name that no command has given stops another agent's command too, before it could
be decoded and refused as SecondAgent (DESIGN CHOICE, log 16). That stop leaves the request the next item (log 11). -/
def issueRequest (i : Issue) (s : State) : Result :=
  match i.request with
  | .command w operands =>
    match assemble s.names w s.drawn operands with
    | some (w', drawn) => nameResponse i.into (issueWord i.agent w' { s with drawn := drawn })
    | none => .refused (.unboundResponse { s with pending := .issue i :: s.pending })
  | .wideMem addr more => issueWideMem i.agent addr more s

/-- Write out a host sequence in front of the rest of the program; the block sees nothing of this (45_host_sequences.md: "It is
software around the block, not part of it"). A message that cannot be passed leaves the call the next item (log 12). -/
def callSequence (q : HostSequence) (s : State) : Result :=
  match expandSequence s.params q with
  | some items => .next { s with pending := items ++ s.pending }
  | none => .refused (.unterminatedMessage { s with pending := .call q :: s.pending })

/-- Take one item of the host's program, already removed from the front of `pending`. -/
def takeItem (item : HostItem) (s : State) : Result :=
  match item with
  | .issue i => issueRequest i s
  | .call q => callSequence q s

/-- A fault or a refusal has been recorded: the block takes no further command (R184). The model's own refusals
unterminatedMessage and unboundResponse record nothing: the state they leave still has its item to issue, and every further
step is refused in the same way (DESIGN CHOICE, log 11, log 12). -/
def State.stopped (s : State) : Bool := !s.faults.isEmpty || !s.refusals.isEmpty

/-- The host puts one command word, as it is, in front of its program. -/
def placeWord (w : CommandWord) (s : State) : State :=
  { s with pending := .issue { agent := .host, request := .command w [], into := none } :: s.pending }

end Sys2Proof.Machine
end

