-- ==== Sys2Proof/Machine/Step.lean ====
section
/-! DEFINITION. One step of the machine. The block fetches nothing (20_memory.md R50): the host issues the next item of its
program and the item takes effect as one step (R47, R49). -/

namespace Sys2Proof.Machine

/-- One step: none from a stopped state (R184), nothing happens while the host issues nothing (R188, R190; log 9), and else
the next item of the host's program is taken. -/
def step (s : State) : Host.Outcome State Fault Refusal :=
  if s.stopped then .fault (.quiescent s)
  else
    match s.pending with
    | [] => .next s
    | item :: rest => takeItem item { s with pending := rest }

/-- `s` about to issue the command word `w` (numbered as the opcode table numbers its bits): the word is put in front of the
host's program, and the two records are emptied, since a stopped machine takes no command (log 10). -/
def State.withFetchWord (s : State) (nbits w : Nat) : State :=
  placeWord (tableWord nbits w) { s with faults := [], refusals := [] }

end Sys2Proof.Machine
end

