-- ==== Sys2Proof/WellFormed.lean ====
section
/-! DEFINITION. What is well formed before a run: the parameters of a machine, the message of a print sequence, and the
response names of a host program. A term of `Instr` needs no check (its operand types are the fields of the word), and a command
word is checked by the decoder. -/

namespace Sys2Proof

/-- Each width fits what holds its value (a 16-bit port field and cursor register, 32-bit address, coordinate and offset fields:
R22, R60, R61); the cursor register can hold the index 2000 that the last cell's next offset gives, every cursor offset is an
offset, and every COLOF and ROWOF response is a coordinate (R104, R105, R120, R141). DESIGN CHOICE (log 24): R5 shows one value
of each width, which satisfies this. -/
abbrev Params.WidthsFit (p : Params) : Prop :=
  p.portWidth ≤ 16 ∧ p.addrWidth ≤ 32 ∧ p.curWidth ≤ 16 ∧ p.coordWidth ≤ 32 ∧ p.offsetWidth ≤ 32 ∧
  11 ≤ p.curWidth ∧ p.curWidth + 1 ≤ p.offsetWidth ∧ p.offsetWidth ≤ p.coordWidth + 6 ∧ 8 ≤ p.coordWidth

/-- The two ports differ, the two cursor indices differ, the framebuffer region lies inside the memory space, the two ports
inside the port space, and the widths fit (R23, R40, R41). DEDUCED (log 2): the spec shows only values that satisfy this. -/
abbrev Params.WellFormed (p : Params) : Prop :=
  p.selPort ≠ p.dataPort ∧ p.curHiIdx ≠ p.curLoIdx ∧ p.fbBase.toNat + 4000 ≤ 2 ^ p.addrWidth ∧
  p.selPort.toNat < 2 ^ p.portWidth ∧ p.dataPort.toNat < 2 ^ p.portWidth ∧ p.WidthsFit

namespace Machine

/-- A message holds its terminating CH_NUL: "end it with CH_NUL" (R191, 93 U27). -/
def HostSequence.wellFormed (p : Params) : HostSequence → Bool
  | .printCharacter _ _ _ _ => true
  | .printAt msg _ _ _ => msg.contains p.chNul
  | .print msg _ => msg.contains p.chNul
  | .clear => true

/-- The names a sequence leaves to its caller: PRINT_CHARACTER returns `n` (R161). -/
def HostSequence.returns : HostSequence → List RespName
  | .printCharacter _ _ _ _ => [.seqN]
  | .printAt _ _ _ _ => []
  | .print _ _ => []
  | .clear => []

/-- The response names a request uses as operands (R66). -/
def Request.uses : Request → List RespName
  | .command _ operands => operands.map Prod.snd
  | .wideMem _ _ => []

/-- Every response name is given by an earlier command of the same program before it is used (R66), and every message ends.
`bound` lists the names given so far. -/
def programWellFormed (p : Params) (bound : List RespName) : List HostItem → Bool
  | [] => true
  | .call q :: rest => q.wellFormed p && programWellFormed p (q.returns ++ bound) rest
  | .issue i :: rest =>
    (i.request.uses.all fun n => bound.contains n) && programWellFormed p (i.into.toList ++ bound) rest

end Machine

end Sys2Proof
end

