-- ==== Sys2Proof/Safety.lean ====
section
/-! DEFINITION. What claims are stated in: the invariant of the machine, a final state (60_exceptions.md R193), the state a
stop leaves (R181, R182), and runs of several steps. -/

namespace Sys2Proof.Machine

/-- The invariant: the parameters are well formed, the framebuffer is in canonical form, and CUR is within CUR_WIDTH bits. -/
abbrev State.Inv (s : State) : Prop := s.params.WellFormed ∧ s.fb.wf ∧ s.cur.toNat < 2 ^ s.params.curWidth

/-- A final state: the host has nothing more to issue, and the fault record and the refusal mark are empty (R193). R193 ends a run
when the last command of its program has completed and is silent on a program with no command; here such a run has ended where it
starts, and State.reset, with nothing issued, is final (DESIGN CHOICE, log 25). -/
abbrev State.Final (s : State) : Prop := s.pending = [] ∧ s.faults = [] ∧ s.refusals = []

/-- The state a fault leaves (R181, R184). -/
def Fault.left : Fault → State
  | .reservedOpcode t => t
  | .reservedField t => t
  | .selectorUnset t => t
  | .cellOffsetInvalid t => t
  | .quiescent t => t

/-- The state a refusal leaves (R182), none for an instruction that has no meaning. -/
def Refusal.left : Refusal → Option State
  | .unclaimedPort t => some t
  | .selectorRead t => some t
  | .otherControllerRegister t => some t
  | .wordPortAccess t => some t
  | .outsideFramebuffer t => some t
  | .wideMemoryAccess t => some t
  | .secondAgent t => some t
  | .unterminatedMessage t => some t
  | .unboundResponse t => some t
  | _ => none

/-- `k` steps from `s`, stopping at the first fault or refusal. -/
def runSteps : Nat → State → Result
  | 0, s => .next s
  | k + 1, s =>
    match step s with
    | .next t => runSteps k t
    | .fault f => .fault f
    | .refused r => .refused r

/-- The commands listed, given to the block one after the other by the host, stopping at the first that does not complete. -/
def execAll : List Instr → State → Result
  | [], s => .next s
  | i :: rest, s =>
    match exec i s with
    | .next t => execAll rest t
    | .fault f => .fault f
    | .refused r => .refused r

/-- The command completes with the response `v` and changes nothing. -/
abbrev Answers (i : Instr) (s : State) (v : U32) : Prop := exec i s = .next { s with response := some v }

end Sys2Proof.Machine

namespace Sys2Proof

/-- `w[hi:lo]` as an unsigned number (R7). -/
def bitsOf (w : CommandWord) (hi lo : Nat) : Nat := w.toNat / 2 ^ lo % 2 ^ (hi + 1 - lo)

/-- The OP values of R62, as R65 lists them. -/
def definedOps : List Nat := [0x01, 0x02, 0x03, 0x04, 0x05, 0x06, 0x10, 0x11, 0x12, 0x20, 0x21, 0x30, 0x31, 0x32]

/-- The reserved fields of a defined OP as bit ranges (hi, lo) of the word, from the "fields used" of R62 and R63. -/
def reservedRanges (op : Nat) : List (Nat × Nat) :=
  match op with
  | 0x01 => [(79, 64), (47, 16), (7, 0)]
  | 0x02 => [(79, 64), (47, 16), (15, 8), (7, 0)]
  | 0x03 => [(79, 64), (47, 32), (15, 8), (7, 0)]
  | 0x04 => [(79, 64), (47, 16), (15, 8), (7, 0)]
  | 0x05 => [(47, 16), (7, 0)]
  | 0x06 => [(47, 16), (15, 8), (7, 0)]
  | 0x10 => [(15, 8), (7, 0)]
  | 0x11 => [(47, 16), (15, 8), (7, 0)]
  | 0x12 => [(47, 16), (15, 8), (7, 0)]
  | 0x20 => [(79, 48), (47, 16), (15, 8), (7, 0)]
  | 0x21 => [(47, 16), (15, 8), (7, 0)]
  | 0x30 => [(47, 16)]
  | 0x31 => []
  | 0x32 => [(79, 48), (47, 16)]
  | _ => []

end Sys2Proof
end

