-- ==== Sys2Proof/Certificates/Slice0/Obligations.lean ====
section
/-! DEFINITION. The statements for the provers. -/

open Sys2Proof Sys2Proof.Machine

/-! ## The command word (30_encoding.md) -/

/-- Decode and encode agree on every command: no bit of an encoding is dropped (R60 to R65). -/
def Obligations.DecodingAnEncodedCommandGivesItBack : Prop :=
  ∀ i : Instr, decode (encode i) = .ok i

/-- A word that decodes is the encoding of what it decodes to: each word has one meaning (R60 to R65). -/
def Obligations.EncodingADecodedWordGivesItBack : Prop :=
  ∀ (w : CommandWord) (i : Instr), decode w = .ok i → encode i = w

/-- The decoder rejects exactly the words with a reserved OP, and the words with a defined OP and a non-zero reserved field
(R63, R64, R65). -/
def Obligations.DecoderRejectsExactlyTheReservedWords : Prop :=
  ∀ w : CommandWord,
    (bitsOf w 87 80 ∉ definedOps → decode w = .error .reservedOpcode) ∧
    (bitsOf w 87 80 ∈ definedOps → (∃ r ∈ reservedRanges (bitsOf w 87 80), bitsOf w r.1 r.2 ≠ 0) →
      decode w = .error .reservedField) ∧
    (bitsOf w 87 80 ∈ definedOps → (∀ r ∈ reservedRanges (bitsOf w 87 80), bitsOf w r.1 r.2 = 0) →
      ∃ i, decode w = .ok i)

/-- Where a word decodes, its OP is the command's number in R62 and each operand is the bit range R60 and R61 give it. -/
def Obligations.DecodedOperandsAreTheirBitRanges : Prop :=
  ∀ w : CommandWord,
    (∀ port val8, decode w = .ok (.iowrb port val8) →
      bitsOf w 87 80 = 0x01 ∧ port.toNat = bitsOf w 63 48 ∧ val8.toNat = bitsOf w 15 8) ∧
    (∀ port, decode w = .ok (.iordb port) → bitsOf w 87 80 = 0x02 ∧ port.toNat = bitsOf w 63 48) ∧
    (∀ port val16, decode w = .ok (.iowrw port val16) →
      bitsOf w 87 80 = 0x03 ∧ port.toNat = bitsOf w 63 48 ∧ val16.toNat = bitsOf w 31 16) ∧
    (∀ port, decode w = .ok (.iordw port) → bitsOf w 87 80 = 0x04 ∧ port.toNat = bitsOf w 63 48) ∧
    (∀ addr val8, decode w = .ok (.memwrb addr val8) →
      bitsOf w 87 80 = 0x05 ∧ addr.toNat = bitsOf w 79 48 ∧ val8.toNat = bitsOf w 15 8) ∧
    (∀ addr, decode w = .ok (.memrdb addr) → bitsOf w 87 80 = 0x06 ∧ addr.toNat = bitsOf w 79 48) ∧
    (∀ col row, decode w = .ok (.offset col row) →
      bitsOf w 87 80 = 0x10 ∧ col.toNat = bitsOf w 79 48 ∧ row.toNat = bitsOf w 47 16) ∧
    (∀ off, decode w = .ok (.rowof off) → bitsOf w 87 80 = 0x11 ∧ off.toNat = bitsOf w 79 48) ∧
    (∀ off, decode w = .ok (.colof off) → bitsOf w 87 80 = 0x12 ∧ off.toNat = bitsOf w 79 48) ∧
    (decode w = .ok .getcur → bitsOf w 87 80 = 0x20) ∧
    (∀ off, decode w = .ok (.setcur off) → bitsOf w 87 80 = 0x21 ∧ off.toNat = bitsOf w 79 48) ∧
    (∀ off ch attr, decode w = .ok (.wrcell off ch attr) →
      bitsOf w 87 80 = 0x30 ∧ off.toNat = bitsOf w 79 48 ∧ ch.toNat = bitsOf w 15 8 ∧ attr.toNat = bitsOf w 7 0) ∧
    (∀ col row ch attr, decode w = .ok (.wrchar col row ch attr) →
      bitsOf w 87 80 = 0x31 ∧ col.toNat = bitsOf w 79 48 ∧ row.toNat = bitsOf w 47 16 ∧ ch.toNat = bitsOf w 15 8 ∧
        attr.toNat = bitsOf w 7 0) ∧
    (∀ ch attr, decode w = .ok (.fill ch attr) →
      bitsOf w 87 80 = 0x32 ∧ ch.toNat = bitsOf w 15 8 ∧ attr.toNat = bitsOf w 7 0)

/-- The nine worked encodings of R68, at the default parameters, decode to the commands they stand for and are their
encodings. -/
def Obligations.WorkedEncodingsAreRead : Prop :=
  (decode 0x01000003D4000000000F00 = .ok (.iowrb 0x3D4 0x0F) ∧ encode (.iowrb 0x3D4 0x0F) = 0x01000003D4000000000F00) ∧
  (decode 0x02000003D5000000000000 = .ok (.iordb 0x3D5) ∧ encode (.iordb 0x3D5) = 0x02000003D5000000000000) ∧
  (decode 0x05000B8000000000004100 = .ok (.memwrb 0xB8000 0x41) ∧ encode (.memwrb 0xB8000 0x41) = 0x05000B8000000000004100) ∧
  (decode 0x100000004F000000000000 = .ok (.offset 79 0) ∧ encode (.offset 79 0) = 0x100000004F000000000000) ∧
  (decode 0x10FFFFFFFB000000640000 = .ok (.offset (-5) 100) ∧ encode (.offset (-5) 100) = 0x10FFFFFFFB000000640000) ∧
  (decode 0x2000000000000000000000 = .ok .getcur ∧ encode .getcur = 0x2000000000000000000000) ∧
  (decode 0x2100000000000000000000 = .ok (.setcur 0) ∧ encode (.setcur 0) = 0x2100000000000000000000) ∧
  (decode 0x310000000000000000410F = .ok (.wrchar 0 0 0x41 0x0F) ∧
    encode (.wrchar 0 0 0x41 0x0F) = 0x310000000000000000410F) ∧
  (decode 0x320000000000000000200F = .ok (.fill 0x20 0x0F) ∧ encode (.fill 0x20 0x0F) = 0x320000000000000000200F)

/-! ## One step (20_memory.md R47, R49; 60_exceptions.md R183 to R188) -/

/-- A step runs the decoded command: where the host's next item is a command word that decodes, the step is that command on
the state without the item, and where the item asks for a name, the command's response is then known by it. -/
def Obligations.StepRunsTheDecodedCommand : Prop :=
  ∀ (s : State) (rest : List HostItem) (w : CommandWord) (i : Instr) (into : Option RespName),
    s.faults = [] → s.refusals = [] →
    s.pending = .issue { agent := .host, request := .command w [], into := into } :: rest →
    decode w = .ok i →
    step s = nameResponse into (exec i { s with pending := rest }) ∧
    (into = none → step s = exec i { s with pending := rest }) ∧
    (∀ n t v, into = some n → exec i { s with pending := rest } = .next t → t.response = some v →
      step s = .next { t with names := bindName t.names n v } ∧
      lookupName (bindName t.names n v) n = some v ∧
      ∀ m, m ≠ n → lookupName (bindName t.names n v) m = lookupName t.names m)

/-- A response name used as an operand puts the response into the operand's field (R66); a response above 0xFF leaves a byte
field a free value and the command runs (log 23); a name no command has given leaves the command unissued and the state as it
was (log 11, the model's choice). -/
def Obligations.ResponseNamesBecomeOperands : Prop :=
  ∀ (s : State) (rest : List HostItem) (op : Byte) (a b v : U32) (c d : Byte) (n : RespName) (f : OperandField) (w : CommandWord),
    s.faults = [] → s.refusals = [] →
    s.pending = .issue { agent := .host, request := .command (packWord op a b c d) [(f, n)], into := none } :: rest →
    (lookupName s.names n = some v →
      (f = .a ∧ w = packWord op v b c d ∨ f = .b ∧ w = packWord op a v c d ∨
        v.toNat < 256 ∧ f = .c ∧ w = packWord op a b (BitVec.ofNat 8 v.toNat) d ∨
        v.toNat < 256 ∧ f = .d ∧ w = packWord op a b c (BitVec.ofNat 8 v.toNat)) →
      ∀ i, decode w = .ok i → step s = exec i { s with pending := rest }) ∧
    (lookupName s.names n = some v → 256 ≤ v.toNat →
      (f = .c ∧ w = packWord op a b (Config.freeByte s.drawn) d ∨ f = .d ∧ w = packWord op a b c (Config.freeByte s.drawn)) →
      ∀ i, decode w = .ok i → step s = exec i { s with pending := rest, drawn := s.drawn + 1 }) ∧
    (lookupName s.names n = none → step s = .refused (.unboundResponse s))

/-- A word with a reserved OP, or with a defined OP and a non-zero reserved field, faults under its own reason whoever issues
it, and does nothing but record the fault (R63, R64). -/
def Obligations.ReservedWordsFault : Prop :=
  ∀ (s : State) (rest : List HostItem) (agent : Agent) (w : CommandWord) (into : Option RespName),
    s.faults = [] → s.refusals = [] →
    s.pending = .issue { agent := agent, request := .command w [], into := into } :: rest →
    (bitsOf w 87 80 ∉ definedOps →
      step s = .fault (.reservedOpcode { s with
        pending := rest, faults := [{ reason := .reservedOpcode, word := w, off := none }] })) ∧
    (bitsOf w 87 80 ∈ definedOps → (∃ r ∈ reservedRanges (bitsOf w 87 80), bitsOf w r.1 r.2 ≠ 0) →
      step s = .fault (.reservedField { s with
        pending := rest, faults := [{ reason := .reservedField, word := w, off := none }] }))

/-- A command of an agent other than the host is refused once it has decoded, and so is a wide memory access of such an agent
(R183, R188; the wide access: log 13). -/
def Obligations.SecondAgentIsRefused : Prop :=
  ∀ (s : State) (rest : List HostItem) (k : Nat) (into : Option RespName),
    s.faults = [] → s.refusals = [] →
    (∀ w i, s.pending = .issue { agent := .other k, request := .command w [], into := into } :: rest → decode w = .ok i →
      step s = .refused (.secondAgent { s with pending := rest, refusals := [.secondAgent] })) ∧
    (∀ addr more, s.pending = .issue { agent := .other k, request := .wideMem addr more, into := into } :: rest →
      step s = .refused (.secondAgent { s with pending := rest, refusals := [.secondAgent] }))

/-- A memory access of the host wider than a byte is refused with WideMemoryAccess at every address (R44, R89, R182). That it is
never OutsideFramebuffer, wherever it lies, is the model's reading (log 13). -/
def Obligations.WideMemoryAccessIsRefused : Prop :=
  ∀ (s : State) (rest : List HostItem) (addr : U32) (more : Nat) (into : Option RespName),
    s.faults = [] → s.refusals = [] →
    s.pending = .issue { agent := .host, request := .wideMem addr more, into := into } :: rest →
    step s = .refused (.wideMemoryAccess { s with pending := rest, refusals := [.wideMemoryAccess] })

/-- "After a fault or refusal the model takes no further command": from a state with a non-empty record a step stops and
leaves the state as it is (R184). The name of the stop is the model's (log 8). -/
def Obligations.StoppedMachineTakesNoCommand : Prop :=
  ∀ s : State, (s.faults ≠ [] ∨ s.refusals ≠ []) → step s = .fault (.quiescent s)

/-- While the host issues nothing, nothing changes (R188, R190). That such a step answers the same state, and is not a stop, is
the model's choice (log 9). -/
def Obligations.IdleStepChangesNothing : Prop :=
  ∀ s : State, s.faults = [] → s.refusals = [] → s.pending = [] → step s = .next s

/-! ## Bus commands (40_bus_access.md) -/

/-- IOWRB: `PortWrite8` and `DataWrite`, every case (R80, R81), of the port operand read at PORT_WIDTH and a cursor register of
CUR_WIDTH bits (log 24), for any parameters. -/
def Obligations.PortByteWriteReaction : Prop :=
  ∀ (s : State) (port p : U16) (v : Byte), p = s.params.readPort port →
    (p = s.params.selPort →
      exec (.iowrb port v) s = .next { s with sel := some v, response := none }) ∧
    (p ≠ s.params.selPort → p = s.params.dataPort →
      (s.sel = none →
        exec (.iowrb port v) s = .fault (.selectorUnset { s with
          faults := s.faults ++ [{ reason := .selectorUnset, word := encode (.iowrb port v), off := none }] })) ∧
      (s.sel = some s.params.curHiIdx →
        ∃ cur', cur'.toNat = (v.toNat * 256 + s.cur.toNat % 256) % 2 ^ s.params.curWidth ∧
          exec (.iowrb port v) s = .next { s with cur := cur', response := none }) ∧
      (s.sel = some s.params.curLoIdx → s.params.curLoIdx ≠ s.params.curHiIdx →
        ∃ cur', cur'.toNat = (s.cur.toNat / 256 * 256 + v.toNat) % 2 ^ s.params.curWidth ∧
          exec (.iowrb port v) s = .next { s with cur := cur', response := none }) ∧
      (∀ x, s.sel = some x → x ≠ s.params.curHiIdx → x ≠ s.params.curLoIdx →
        exec (.iowrb port v) s = .refused (.otherControllerRegister { s with
          refusals := s.refusals ++ [.otherControllerRegister] }))) ∧
    (p ≠ s.params.selPort → p ≠ s.params.dataPort →
      exec (.iowrb port v) s = .refused (.unclaimedPort { s with refusals := s.refusals ++ [.unclaimedPort] }))

/-- IORDB: `PortRead8` and `DataRead`, every case (R82, R83, R84), of the port operand read at PORT_WIDTH (log 24), for any
parameters. -/
def Obligations.PortByteReadReaction : Prop :=
  ∀ (s : State) (port p : U16), p = s.params.readPort port →
    (p = s.params.dataPort →
      (s.sel = none →
        exec (.iordb port) s = .fault (.selectorUnset { s with
          faults := s.faults ++ [{ reason := .selectorUnset, word := encode (.iordb port), off := none }] })) ∧
      (s.sel = some s.params.curHiIdx →
        ∃ v, v.toNat = s.cur.toNat / 256 ∧ exec (.iordb port) s = .next { s with response := some v }) ∧
      (s.sel = some s.params.curLoIdx → s.params.curLoIdx ≠ s.params.curHiIdx →
        ∃ v, v.toNat = s.cur.toNat % 256 ∧ exec (.iordb port) s = .next { s with response := some v }) ∧
      (∀ x, s.sel = some x → x ≠ s.params.curHiIdx → x ≠ s.params.curLoIdx →
        exec (.iordb port) s = .refused (.otherControllerRegister { s with
          refusals := s.refusals ++ [.otherControllerRegister] }))) ∧
    (p ≠ s.params.dataPort → p = s.params.selPort →
      exec (.iordb port) s = .refused (.selectorRead { s with refusals := s.refusals ++ [.selectorRead] })) ∧
    (p ≠ s.params.dataPort → p ≠ s.params.selPort →
      exec (.iordb port) s = .refused (.unclaimedPort { s with refusals := s.refusals ++ [.unclaimedPort] }))

/-- IOWRW and IORDW are refused on every port: WordPortAccess on the block's two ports, UnclaimedPort on any other (R86, R92,
R93); the port operand is read at PORT_WIDTH (log 24). -/
def Obligations.WordPortCommandsAreRefused : Prop :=
  ∀ (s : State) (port val16 p : U16), p = s.params.readPort port →
    (p = s.params.selPort ∨ p = s.params.dataPort →
      exec (.iowrw port val16) s = .refused (.wordPortAccess { s with refusals := s.refusals ++ [.wordPortAccess] }) ∧
      exec (.iordw port) s = .refused (.wordPortAccess { s with refusals := s.refusals ++ [.wordPortAccess] })) ∧
    (p ≠ s.params.selPort → p ≠ s.params.dataPort →
      exec (.iowrw port val16) s = .refused (.unclaimedPort { s with refusals := s.refusals ++ [.unclaimedPort] }) ∧
      exec (.iordw port) s = .refused (.unclaimedPort { s with refusals := s.refusals ++ [.unclaimedPort] }))

/-- MEMWRB inside the framebuffer writes the one byte and nothing else; outside it is refused (R87); the address operand
is read at ADDR_WIDTH (log 24). -/
def Obligations.HostByteWriteReachesTheFramebuffer : Prop :=
  ∀ (s : State) (addr a : U32) (v : Byte), s.fb.wf → a = s.params.readAddr addr →
    (∀ i, i < 4000 → a.toNat = s.params.fbBase.toNat + i →
      ∃ t, exec (.memwrb addr v) s = .next t ∧ t = { s with fb := t.fb, response := none } ∧ t.readFb i = v ∧
        ∀ k, k ≠ i → t.readFb k = s.readFb k) ∧
    (a.toNat < s.params.fbBase.toNat ∨ s.params.fbBase.toNat + 4000 ≤ a.toNat →
      exec (.memwrb addr v) s = .refused (.outsideFramebuffer { s with
        refusals := s.refusals ++ [.outsideFramebuffer] }))

/-- MEMRDB inside the framebuffer answers the byte and changes no state; outside it is refused (R88); the address
operand is read at ADDR_WIDTH (log 24). -/
def Obligations.HostByteReadAnswersTheFramebuffer : Prop :=
  ∀ (s : State) (addr a : U32), a = s.params.readAddr addr →
    (∀ i, i < 4000 → a.toNat = s.params.fbBase.toNat + i →
      ∃ v, v.toNat = (s.readFb i).toNat ∧ Answers (.memrdb addr) s v) ∧
    (a.toNat < s.params.fbBase.toNat ∨ s.params.fbBase.toNat + 4000 ≤ a.toNat →
      exec (.memrdb addr) s = .refused (.outsideFramebuffer { s with refusals := s.refusals ++ [.outsideFramebuffer] }))

/-! ## Address calculator (41_addressing.md) -/

/-- OFFSET of any two coordinates, read as two's complement at COORD_WIDTH (s32 at R5's width; log 24): each is clamped to the
last valid index on its own, and the response is 2 × (row × 80 + column) of the clamped pair, even and in 0 .. 3998 (R100,
R101). -/
def Obligations.OffsetClampsThenComputes : Prop :=
  ∀ (s : State) (col row x y : U32) (c r : Int), x = s.params.readCoord col → y = s.params.readCoord row →
    (x.toInt < 0 ∧ c = 0 ∨ 0 ≤ x.toInt ∧ x.toInt ≤ 79 ∧ c = x.toInt ∨ 80 ≤ x.toInt ∧ c = 79) →
    (y.toInt < 0 ∧ r = 0 ∨ 0 ≤ y.toInt ∧ y.toInt ≤ 24 ∧ r = y.toInt ∨ 25 ≤ y.toInt ∧ r = 24) →
    ∃ v, (v.toNat : Int) = 2 * (r * 80 + c) ∧ v.toNat % 2 = 0 ∧ v.toNat ≤ 3998 ∧ Answers (.offset col row) s v

/-- ROWOF of any offset, read at OFFSET_WIDTH (log 24), is its quotient by 160, unclamped (R102). -/
def Obligations.RowOfDividesByTheRowBytes : Prop :=
  ∀ (s : State) (off : U32), ∃ v, v.toNat = (s.params.readOffset off).toNat / 160 ∧ Answers (.rowof off) s v

/-- COLOF of any offset, read at OFFSET_WIDTH (log 24), subtracts the row's base offset and halves, in 0 .. 79 (R103). -/
def Obligations.ColumnOfHalvesTheRest : Prop :=
  ∀ (s : State) (off o : U32), o = s.params.readOffset off →
    ∃ v, v.toNat = (o.toNat - o.toNat / 160 * 160) / 2 ∧ v.toNat ≤ 79 ∧ Answers (.colof off) s v

/-- "ROWOF of OFFSET(c, r) is r, and COLOF of OFFSET(c, r) is c" on the grid (R104), on a machine with well-formed
parameters (log 24). -/
def Obligations.CalculatorIsConsistent : Prop :=
  ∀ (s : State) (c r : U32), s.params.WellFormed → c.toNat < 80 → r.toNat < 25 →
    ∃ o, Answers (.offset c r) s o ∧ Answers (.rowof o) s r ∧ Answers (.colof o) s c

/-- The five laws of R105, on a machine with well-formed parameters (log 24). The second takes every offset that
OFFSET_WIDTH bits can hold; its value at 0x1FFFE is that of an offset so wide. -/
def Obligations.CalculatorLaws : Prop :=
  ∀ s : State, s.params.WellFormed →
    (∀ o : U32, o.toNat % 2 = 0 → o.toNat ≤ 3998 →
      ∃ c r, Answers (.colof o) s c ∧ Answers (.rowof o) s r ∧ Answers (.offset c r) s o) ∧
    (∀ o : U32, 4000 ≤ o.toNat → o.toNat < 2 ^ s.params.offsetWidth →
      ∃ c r v, Answers (.colof o) s c ∧ Answers (.rowof o) s r ∧ Answers (.offset c r) s v ∧
        v.toNat = 3840 + 2 * c.toNat ∧ (o = 4000 → v = 3840) ∧ (o = 0x1FFFE → v = 3870)) ∧
    (∀ o : U32, o.toNat % 2 = 1 → o.toNat ≤ 3999 →
      ∃ c r v, Answers (.colof o) s c ∧ Answers (.rowof o) s r ∧ Answers (.offset c r) s v ∧ v.toNat = o.toNat - 1) ∧
    (∀ col row x y c r : U32, x = s.params.readCoord col → y = s.params.readCoord row →
      (x.toInt < 0 ∧ c = 0 ∨ 0 ≤ x.toInt ∧ x.toInt ≤ 79 ∧ c = x ∨ 80 ≤ x.toInt ∧ c = 79) →
      (y.toInt < 0 ∧ r = 0 ∨ 0 ≤ y.toInt ∧ y.toInt ≤ 24 ∧ r = y ∨ 25 ≤ y.toInt ∧ r = 24) →
      ∃ v, Answers (.offset col row) s v ∧ Answers (.offset c r) s v) ∧
    (∀ c r : U32, c.toNat < 79 → r.toNat < 25 →
      ∃ v, Answers (.offset c r) s v ∧ Answers (.offset (c + 1) r) s (v + 2)) ∧
    (∀ r : U32, r.toNat < 24 → ∃ v, Answers (.offset 79 r) s v ∧ Answers (.offset 0 (r + 1)) s (v + 2))

/-! ## Cursor register (42_cursor.md) -/

/-- GETCUR answers CUR × 2 and leaves SEL at CUR_HI_IDX, all else as it was (R121), on a machine with well-formed
parameters (log 2, log 24). -/
def Obligations.GetcurAnswersTwiceTheCursor : Prop :=
  ∀ s : State, s.params.WellFormed →
    ∃ v, v.toNat = 2 * s.cur.toNat ∧
      exec .getcur s = .next { s with sel := some s.params.curHiIdx, response := some v }

/-- SETCUR stores (off div 2) mod 2^CUR_WIDTH, of the offset read at OFFSET_WIDTH, and leaves SEL at CUR_LO_IDX, all else as it
was (R122), on a machine with well-formed parameters (log 2). R122 writes the 16 of R5; that another width takes its place is
the model's choice (log 24). -/
def Obligations.SetcurStoresHalfTheOffset : Prop :=
  ∀ (s : State) (off : U32), s.params.WellFormed →
    ∃ v, v.toNat = (s.params.readOffset off).toNat / 2 % 2 ^ s.params.curWidth ∧
      exec (.setcur off) s = .next { s with cur := v, sel := some s.params.curLoIdx, response := none }

/-- After SETCUR off, GETCUR answers ((off div 2) mod 2^CUR_WIDTH) × 2, which is off itself for every even off below
2^(CUR_WIDTH + 1), 0x1FFFE the last of them at R5's width; and the selector's value before either never changes its effect on
CUR or its response (R123; another width: log 24). -/
def Obligations.CursorRoundTrip : Prop :=
  ∀ (s : State) (off : U32), s.params.WellFormed →
    (∃ t u v, exec (.setcur off) s = .next t ∧ exec .getcur t = .next u ∧ u.response = some v ∧
      v.toNat = (s.params.readOffset off).toNat / 2 % 2 ^ s.params.curWidth * 2 ∧
      (off.toNat % 2 = 0 → off.toNat < 2 ^ (s.params.curWidth + 1) → v = off)) ∧
    (∀ x : Option Byte, ∃ t u, exec (.setcur off) s = .next t ∧ exec (.setcur off) { s with sel := x } = .next u ∧
      t.cur = u.cur ∧ t.response = u.response) ∧
    (∀ x : Option Byte, ∃ t u, exec .getcur s = .next t ∧ exec .getcur { s with sel := x } = .next u ∧
      t.cur = u.cur ∧ t.response = u.response)

/-- The port-level series of GETCUR and SETCUR, issued as separate commands, give the same SEL, CUR and FB as the one command,
and the two bytes read are the low and the high byte of CUR (R67, R124), on a machine with well-formed parameters (log 2, log 24).
The two bytes SETCUR's series writes are those of (off div 2) mod 2^CUR_WIDTH, off read at OFFSET_WIDTH: R122 writes mod 2^16, the
same at R5's widths, and that another width takes its place is the model's choice (log 24). -/
def Obligations.CursorCommandsAreTheirPortSeries : Prop :=
  ∀ (s : State) (off : U32) (v : Nat) (hi lo : Byte), s.params.WellFormed →
    v = (s.params.readOffset off).toNat / 2 % 2 ^ s.params.curWidth →
    (∃ t₂ t₄ u b₂ b₄,
      execAll [.iowrb s.params.selPort s.params.curLoIdx, .iordb s.params.dataPort] s = .next t₂ ∧
      execAll [.iowrb s.params.selPort s.params.curHiIdx, .iordb s.params.dataPort] t₂ = .next t₄ ∧
      exec .getcur s = .next u ∧ t₂.response = some b₂ ∧ t₄.response = some b₄ ∧
      u.response = some ((b₄ * 256 + b₂) * 2) ∧ t₄ = { u with response := t₄.response }) ∧
    (hi.toNat = v / 256 → lo.toNat = v % 256 →
      ∃ t, execAll [.iowrb s.params.selPort s.params.curHiIdx, .iowrb s.params.dataPort hi,
          .iowrb s.params.selPort s.params.curLoIdx, .iowrb s.params.dataPort lo] s = .next t ∧
        exec (.setcur off) s = .next t)

/-! ## Character-cell writer (43_cell_writer.md) -/

/-- WRCELL at an even offset no greater than 3998 writes the character byte there and the attribute byte after it, and nothing
else; at any other offset it faults, records the offset and writes nothing (R140). The offset is the operand read at
OFFSET_WIDTH (log 24). -/
def Obligations.WrcellWritesOneCellOrFaults : Prop :=
  ∀ (s : State) (off o : U32) (ch attr : Byte), s.fb.wf → o = s.params.readOffset off →
    (o.toNat % 2 = 0 ∧ o.toNat ≤ 3998 →
      ∃ t, exec (.wrcell off ch attr) s = .next t ∧ t = { s with fb := t.fb, response := none } ∧
        t.readFb o.toNat = ch ∧ t.readFb (o.toNat + 1) = attr ∧
        ∀ k, k ≠ o.toNat → k ≠ o.toNat + 1 → t.readFb k = s.readFb k) ∧
    (o.toNat % 2 ≠ 0 ∨ 3998 < o.toNat →
      exec (.wrcell off ch attr) s = .fault (.cellOffsetInvalid { s with
        faults := s.faults ++ [{ reason := .cellOffsetInvalid, word := encode (.wrcell off ch attr), off := some o }] }))

/-- WRCHAR of a character that is not CH_NEWLINE writes the cell of the clamped pair and answers the offset after it; of
CH_NEWLINE it writes nothing and answers the start of the row below the clamped row, or of row 24 from row 24 (R141). The coordinates
are the operands read at COORD_WIDTH (log 24). -/
def Obligations.WrcharWritesTheCellOrMovesDown : Prop :=
  ∀ (s : State) (col row x y : U32) (ch attr : Byte) (c r : Nat), s.fb.wf →
    x = s.params.readCoord col → y = s.params.readCoord row →
    (x.toInt < 0 ∧ c = 0 ∨ 0 ≤ x.toInt ∧ x.toInt ≤ 79 ∧ (c : Int) = x.toInt ∨ 80 ≤ x.toInt ∧ c = 79) →
    (y.toInt < 0 ∧ r = 0 ∨ 0 ≤ y.toInt ∧ y.toInt ≤ 24 ∧ (r : Int) = y.toInt ∨ 25 ≤ y.toInt ∧ r = 24) →
    (ch ≠ s.params.chNewline →
      ∃ t n, exec (.wrchar col row ch attr) s = .next t ∧ t = { s with fb := t.fb, response := some n } ∧
        n.toNat = 2 * (r * 80 + c) + 2 ∧ t.readFb (2 * (r * 80 + c)) = ch ∧ t.readFb (2 * (r * 80 + c) + 1) = attr ∧
        ∀ k, k ≠ 2 * (r * 80 + c) → k ≠ 2 * (r * 80 + c) + 1 → t.readFb k = s.readFb k) ∧
    (ch = s.params.chNewline →
      ∃ n, Answers (.wrchar col row ch attr) s n ∧ (r < 24 → n.toNat = 160 * (r + 1)) ∧ (r = 24 → n.toNat = 3840))

/-- FILL leaves every one of the 2000 cells holding the character and the attribute, a newline included, and changes nothing
else (R142). -/
def Obligations.FillWritesEveryCell : Prop :=
  ∀ (s : State) (ch attr : Byte), s.fb.wf →
    ∃ t, exec (.fill ch attr) s = .next t ∧ t = { s with fb := t.fb, response := none } ∧
      ∀ k, k < 2000 → t.readFb (2 * k) = ch ∧ t.readFb (2 * k + 1) = attr

/-- FILL has exactly the effect of 2000 WRCELL commands in row-major order (R67, R142), on a machine with
well-formed parameters (log 24). -/
def Obligations.FillIsTheSeriesOfCellWrites : Prop :=
  ∀ (s : State) (ch attr : Byte), s.params.WellFormed →
    execAll ((List.range 25).flatMap fun r => (List.range 80).map fun c =>
      .wrcell (BitVec.ofNat 32 (2 * (r * 80 + c))) ch attr) s = exec (.fill ch attr) s

/-- The four laws of R143: a newline writes no byte; WRCHAR is OFFSET then WRCELL; the next offset of a character in the grid;
two FILL commands leave what the second alone leaves. On a machine with well-formed parameters (log 24). -/
def Obligations.CharacterWriterLaws : Prop :=
  ∀ s : State, s.params.WellFormed → s.fb.wf →
    (∀ col row a, ∃ t, exec (.wrchar col row s.params.chNewline a) s = .next t ∧ t.fb = s.fb) ∧
    (∀ col row ch attr, ch ≠ s.params.chNewline →
      ∃ o t, Answers (.offset col row) s o ∧ exec (.wrcell o ch attr) s = .next t ∧
        exec (.wrchar col row ch attr) s = .next { t with response := some (o + 2) }) ∧
    (∀ (c r : U32) ch attr, ch ≠ s.params.chNewline → c.toNat < 80 → r.toNat < 25 →
      ∃ t n, exec (.wrchar c r ch attr) s = .next t ∧ t.response = some n ∧
        (c.toNat < 79 → Answers (.offset (c + 1) r) s n) ∧
        (c.toNat = 79 → r.toNat < 24 → Answers (.offset 0 (r + 1)) s n) ∧
        (c.toNat = 79 → r.toNat = 24 → n = 4000)) ∧
    (∀ ch₁ attr₁ ch₂ attr₂, ∃ t u, exec (.fill ch₁ attr₁) s = .next t ∧ exec (.fill ch₂ attr₂) t = .next u ∧
      exec (.fill ch₂ attr₂) s = .next u)

/-! ## Frames -/

/-- IORDB, MEMRDB, OFFSET, ROWOF and COLOF change nothing: every register, every byte of FB and both records are as they were,
and only the response is delivered. -/
def Obligations.FrameOfCommandsThatOnlyAnswer : Prop :=
  ∀ (s t : State) (i : Instr),
    ((∃ port, i = .iordb port) ∨ (∃ addr, i = .memrdb addr) ∨ (∃ col row, i = .offset col row) ∨
      (∃ off, i = .rowof off) ∨ (∃ off, i = .colof off)) →
    exec i s = .next t → t = { s with response := t.response } ∧ ∀ k, t.readFb k = s.readFb k

/-- IOWRB, GETCUR and SETCUR change SEL and CUR at most: IOWRB on SEL_PORT leaves CUR, IOWRB elsewhere leaves SEL and the byte
of CUR that SEL does not name, GETCUR leaves CUR; no byte of FB, no record and no parameter changes. In a state that
meets the invariant: CUR is within CUR_WIDTH bits (log 24). -/
def Obligations.FrameOfPortAndCursorCommands : Prop :=
  ∀ s t : State, s.Inv →
    (∀ port v, exec (.iowrb port v) s = .next t →
      t = { s with sel := t.sel, cur := t.cur, response := none } ∧ (∀ k, t.readFb k = s.readFb k) ∧
      (s.params.readPort port = s.params.selPort → t.cur = s.cur) ∧
      (s.params.readPort port ≠ s.params.selPort → t.sel = s.sel ∧
        (s.sel = some s.params.curHiIdx → t.cur.toNat % 256 = s.cur.toNat % 256) ∧
        (s.sel ≠ some s.params.curHiIdx → t.cur.toNat / 256 = s.cur.toNat / 256))) ∧
    (exec .getcur s = .next t →
      t = { s with sel := t.sel, response := t.response } ∧ ∀ k, t.readFb k = s.readFb k) ∧
    (∀ off, exec (.setcur off) s = .next t →
      t = { s with sel := t.sel, cur := t.cur, response := none } ∧ ∀ k, t.readFb k = s.readFb k)

/-- MEMWRB, WRCELL, WRCHAR and FILL change FB at most, and in it only the bytes stored to: the byte at addr - FB_BASE, the two
bytes at off, the two bytes at the OFFSET of the pair (none for a newline), the 4000 bytes of the grid;
address, offset and pair are the operands read at their widths (log 24). -/
def Obligations.FrameOfFramebufferWriters : Prop :=
  ∀ s t : State,
    (∀ addr v, exec (.memwrb addr v) s = .next t →
      t = { s with fb := t.fb, response := none } ∧
      ∀ k, k ≠ (s.params.readAddr addr).toNat - s.params.fbBase.toNat → t.readFb k = s.readFb k) ∧
    (∀ off ch attr, exec (.wrcell off ch attr) s = .next t →
      t = { s with fb := t.fb, response := none } ∧
      ∀ o, o = s.params.readOffset off → ∀ k, k ≠ o.toNat → k ≠ o.toNat + 1 → t.readFb k = s.readFb k) ∧
    (∀ col row ch attr, exec (.wrchar col row ch attr) s = .next t →
      t = { s with fb := t.fb, response := t.response } ∧
      (ch = s.params.chNewline → ∀ k, t.readFb k = s.readFb k) ∧
      (∀ o, o = offsetOf (s.params.readCoord col) (s.params.readCoord row) →
        ∀ k, k ≠ o.toNat → k ≠ o.toNat + 1 → t.readFb k = s.readFb k)) ∧
    (∀ ch attr, exec (.fill ch attr) s = .next t →
      t = { s with fb := t.fb, response := none } ∧ ∀ k, 4000 ≤ k → t.readFb k = s.readFb k)

/-- No command that completes changes a parameter, either record, the host's program, a response name or the count of free
bytes drawn. -/
def Obligations.CommandsLeaveRecordsAndHostAlone : Prop :=
  ∀ (i : Instr) (s t : State), exec i s = .next t →
    t.params = s.params ∧ t.faults = s.faults ∧ t.refusals = s.refusals ∧ t.pending = s.pending ∧ t.names = s.names ∧
      t.drawn = s.drawn

/-! ## The whole machine -/

/-- Only SETCUR, and IOWRB on the data port, change CUR; only WRCHAR, WRCELL, FILL and MEMWRB change FB; only IOWRB on the
selector port, GETCUR and SETCUR change SEL. R165 item 5 says "Only SETCUR changes `CUR`"; that IOWRB changes it too is R81 and
R90, and the reading of the two together is the model's (log 15). The port is the operand read at PORT_WIDTH (log 24). -/
def Obligations.OnlyTheseCommandsChangeEachRegister : Prop :=
  ∀ (i : Instr) (s t : State), exec i s = .next t →
    (t.cur ≠ s.cur → (∃ off, i = .setcur off) ∨ ∃ port v, i = .iowrb port v ∧ s.params.readPort port = s.params.dataPort) ∧
    (t.fb ≠ s.fb → (∃ a v, i = .memwrb a v) ∨ (∃ o c a, i = .wrcell o c a) ∨ (∃ x y c a, i = .wrchar x y c a) ∨
      ∃ c a, i = .fill c a) ∧
    (t.sel ≠ s.sel → (∃ port v, i = .iowrb port v ∧ s.params.readPort port = s.params.selPort) ∨ i = .getcur ∨
      ∃ off, i = .setcur off)

/-- A command completes exactly where its word's accesses stay within the block and its offset is a cell's (R180 to R182), each
operand read at its width (log 24). -/
def Obligations.CommandsCompleteExactlyWithinTheBlock : Prop :=
  ∀ s : State, s.params.WellFormed →
    (∀ port v, (∃ t, exec (.iowrb port v) s = .next t) ↔
      s.params.readPort port = s.params.selPort ∨
        s.params.readPort port = s.params.dataPort ∧ (s.sel = some s.params.curHiIdx ∨ s.sel = some s.params.curLoIdx)) ∧
    (∀ port, (∃ t, exec (.iordb port) s = .next t) ↔
      s.params.readPort port = s.params.dataPort ∧ (s.sel = some s.params.curHiIdx ∨ s.sel = some s.params.curLoIdx)) ∧
    (∀ addr v, (∃ t, exec (.memwrb addr v) s = .next t) ↔
      s.params.fbBase.toNat ≤ (s.params.readAddr addr).toNat ∧ (s.params.readAddr addr).toNat < s.params.fbBase.toNat + 4000) ∧
    (∀ addr, (∃ t, exec (.memrdb addr) s = .next t) ↔
      s.params.fbBase.toNat ≤ (s.params.readAddr addr).toNat ∧ (s.params.readAddr addr).toNat < s.params.fbBase.toNat + 4000) ∧
    (∀ off ch attr, (∃ t, exec (.wrcell off ch attr) s = .next t) ↔
      (s.params.readOffset off).toNat % 2 = 0 ∧ (s.params.readOffset off).toNat ≤ 3998) ∧
    (∀ i, (∃ c r, i = .offset c r) ∨ (∃ o, i = .rowof o) ∨ (∃ o, i = .colof o) ∨ i = .getcur ∨ (∃ o, i = .setcur o) ∨
      (∃ c r h a, i = .wrchar c r h a) ∨ (∃ h a, i = .fill h a) → ∃ t, exec i s = .next t)

/-- A command that stops changes nothing but its own record: a fault appends one entry with the command's word, a refusal
appends one reason (R181, R182). -/
def Obligations.StoppedCommandsOnlyRecord : Prop :=
  ∀ (i : Instr) (s : State),
    (∀ f, exec i s = .fault f →
      ∃ e : FaultEntry, e.word = encode i ∧ f.left = { s with faults := s.faults ++ [e] }) ∧
    (∀ r, exec i s = .refused r → ∃ x, r.left = some { s with refusals := s.refusals ++ [x] })

/-- Faults and refusals are precise at every step: SEL, CUR, FB and the parameters are as they were (R181, R182, R184); and the
state a stop leaves is never final (R193), the model's own stops among them (log 8, log 11, log 12). -/
def Obligations.EveryStopIsPrecise : Prop :=
  ∀ s : State,
    (∀ f, step s = .fault f →
      f.left.sel = s.sel ∧ f.left.cur = s.cur ∧ f.left.fb = s.fb ∧ f.left.params = s.params ∧ ¬ f.left.Final) ∧
    (∀ r, step s = .refused r →
      ∃ t, r.left = some t ∧ t.sel = s.sel ∧ t.cur = s.cur ∧ t.fb = s.fb ∧ t.params = s.params ∧ ¬ t.Final)

/-- Both records are empty at reset, no step removes an entry from either, and a state with an entry is not final (R29). -/
def Obligations.RecordsAreNeverCleared : Prop :=
  (State.reset.faults = [] ∧ State.reset.refusals = []) ∧
  (∀ s t : State, step s = .next t → t.faults = s.faults ∧ t.refusals = s.refusals) ∧
  (∀ (s : State) (f : Fault), step s = .fault f → s.faults <+: f.left.faults ∧ s.refusals <+: f.left.refusals) ∧
  (∀ (s t : State) (r : Refusal), step s = .refused r → r.left = some t →
    s.faults <+: t.faults ∧ s.refusals <+: t.refusals) ∧
  (∀ s : State, s.faults ≠ [] ∨ s.refusals ≠ [] → ¬ s.Final)

/-- No step changes a parameter: they are fixed for a run (R5, 92 D7). -/
def Obligations.ParametersAreFixedForARun : Prop :=
  ∀ s t : State, step s = .next t → t.params = s.params

/-- The state at the start of a run, whatever the parameters: SEL unset, both records empty, CUR at its draw, as far as the
register is wide (log 24), and every byte of FB at its draw (R200). The draws are free values of the model (log 5, log 6). -/
def Obligations.ResetState : Prop :=
  ∀ p : Params,
    (State.resetWith p).sel = none ∧ (State.resetWith p).faults = [] ∧ (State.resetWith p).refusals = [] ∧
    (State.resetWith p).cur.toNat = Config.resetCur.toNat % 2 ^ p.curWidth ∧
    (p.curWidth = 16 → (State.resetWith p).cur = Config.resetCur) ∧
    ∀ i, i < 4000 → (State.resetWith p).readFb i = Config.resetFb i

/-- A run starts with the parameters it is given, and State.reset with the value R5 shows for each (R5): DEFAULT_ATTR is OPEN
there and a free value here (log 3); the two indices and the three characters come from general knowledge (log 4). -/
def Obligations.ParametersAreArgumentsWithDefaults : Prop :=
  (∀ p : Params, (State.resetWith p).params = p) ∧ State.reset = State.resetWith defaultParams ∧
  defaultParams.fbBase = 0xB8000 ∧ defaultParams.selPort = 0x3D4 ∧ defaultParams.dataPort = 0x3D5 ∧
  defaultParams.portWidth = 16 ∧ defaultParams.addrWidth = 32 ∧ defaultParams.curHiIdx = 0x0E ∧
  defaultParams.curLoIdx = 0x0F ∧ defaultParams.curWidth = 16 ∧ defaultParams.chNewline = 0x0A ∧
  defaultParams.chNul = 0x00 ∧ defaultParams.chSpace = 0x20 ∧ defaultParams.defaultAttr = Config.defaultAttr ∧
  defaultParams.coordWidth = 32 ∧ defaultParams.offsetWidth = 32

/-- What each width means (R5, R8, R61): the low PORT_WIDTH, ADDR_WIDTH and OFFSET_WIDTH bits of a port, an address and an offset
are read as unsigned, the low COORD_WIDTH bits of a coordinate as two's complement, and the cursor register keeps the low
CUR_WIDTH bits of what is written; at the widths R5 shows each of the five is the field itself. What another width means is the
model's choice (log 24). -/
def Obligations.OperandsAreReadAtTheirWidths : Prop :=
  ∀ p : Params, p.WellFormed →
    (∀ v : U16, (p.readPort v).toNat = v.toNat % 2 ^ p.portWidth ∧ (p.portWidth = 16 → p.readPort v = v)) ∧
    (∀ v : U32, (p.readAddr v).toNat = v.toNat % 2 ^ p.addrWidth ∧ (p.addrWidth = 32 → p.readAddr v = v)) ∧
    (∀ v : U32, (p.readOffset v).toNat = v.toNat % 2 ^ p.offsetWidth ∧ (p.offsetWidth = 32 → p.readOffset v = v)) ∧
    (∀ (v : U32) (n : Nat), n = v.toNat % 2 ^ p.coordWidth →
      (n < 2 ^ (p.coordWidth - 1) → (p.readCoord v).toInt = n) ∧
      (2 ^ (p.coordWidth - 1) ≤ n → (p.readCoord v).toInt = (n : Int) - 2 ^ p.coordWidth) ∧
      (p.coordWidth = 32 → p.readCoord v = v)) ∧
    (∀ v : U16, (p.keepCur v).toNat = v.toNat % 2 ^ p.curWidth ∧ (p.curWidth = 16 → p.keepCur v = v))

/-- The invariant (well-formed parameters, framebuffer in canonical form, CUR within CUR_WIDTH bits) holds at the start of a run
with any well-formed parameters, and R5's are well formed. What a well-formed parameter record is is the model's reading (log 2,
log 24). -/
def Obligations.InvariantHoldsAtReset : Prop :=
  State.reset.Inv ∧ ∀ p : Params, p.WellFormed → (State.resetWith p).Inv

/-- Every step keeps the invariant: well-formed parameters (log 2), a framebuffer in canonical form, CUR within CUR_WIDTH bits
(log 24). -/
def Obligations.EveryStepKeepsTheInvariant : Prop :=
  ∀ s t : State, s.Inv → step s = .next t → t.Inv

/-- No command but MEMRDB learns anything of FB: from two states that differ only in FB it completes in both or neither, with
the same SEL, CUR and response. -/
def Obligations.FramebufferIsReadOnlyByMemrdb : Prop :=
  ∀ (i : Instr) (s t : State) (m : Memory), (∀ addr, i ≠ .memrdb addr) → exec i s = .next t →
    ∃ u, exec i { s with fb := m } = .next u ∧ u.sel = t.sel ∧ u.cur = t.cur ∧ u.response = t.response

/-- No command but IOWRB and IORDB depends on SEL: whatever SEL holds, it completes in the same way, with the same CUR, FB and
response, on a machine with well-formed parameters (log 2, log 24). -/
def Obligations.SelectorMattersOnlyToPortCommands : Prop :=
  ∀ (i : Instr) (s t : State) (x : Option Byte), s.params.WellFormed →
    (∀ port v, i ≠ .iowrb port v) → (∀ port, i ≠ .iordb port) → exec i s = .next t →
    ∃ u, exec i { s with sel := x } = .next u ∧ u.cur = t.cur ∧ u.fb = t.fb ∧ u.response = t.response

/-! ## Host sequences (45_host_sequences.md) -/

/-- CLEAR, from any state that has not stopped, ends after its two commands with every cell (CH_SPACE, DEFAULT_ATTR), CUR = 0 and
SEL = CUR_LO_IDX (R164, R202), from a state that meets the invariant (log 2, log 24). -/
def Obligations.ClearBlanksAndHomes : Prop :=
  ∀ (s : State) (rest : List HostItem), s.Inv → s.faults = [] → s.refusals = [] → s.pending = .call .clear :: rest →
    ∃ t, runSteps 3 s = .next t ∧ t.cur = 0 ∧ t.sel = some s.params.curLoIdx ∧
      (∀ k, k < 2000 → t.readFb (2 * k) = s.params.chSpace ∧ t.readFb (2 * k + 1) = s.params.defaultAttr) ∧
      t = { s with sel := t.sel, cur := t.cur, fb := t.fb, response := none, pending := rest }

/-- PRINT_CHARACTER resolves each Current axis from the cursor offset, has the effect of WRCHAR at the resolved pair, sets the
cursor to the next offset and returns it (R160, R161), from a state that meets the invariant (log 2, log 24). -/
def Obligations.PrintCharacterWritesAndAdvances : Prop :=
  ∀ (s : State) (rest : List HostItem) (ch attr : Byte) (col row : Coord) (c r : U32),
    s.Inv → s.faults = [] → s.refusals = [] → s.pending = .call (.printCharacter ch col row attr) :: rest →
    (col = .at c ∨ col = .current ∧ c.toNat = 2 * s.cur.toNat % 160 / 2) →
    (row = .at r ∨ row = .current ∧ r.toNat = 2 * s.cur.toNat / 160) →
    ∃ k t u n, runSteps k s = .next t ∧ exec (.wrchar c r ch attr) s = .next u ∧ u.response = some n ∧
      t.fb = u.fb ∧ t.cur.toNat = n.toNat / 2 ∧ t.sel = some s.params.curLoIdx ∧ lookupName t.names .seqN = some n ∧
      t.pending = rest ∧ t.faults = [] ∧ t.refusals = [] ∧ t.params = s.params

/-- PRINT is PRINT_AT with both coordinates Current (R163), for every message that ends: both are refused otherwise. -/
def Obligations.PrintIsPrintAtTheCursor : Prop :=
  ∀ (s : State) (rest : List HostItem) (msg : List Byte) (attr : Byte), s.faults = [] → s.refusals = [] →
    s.params.chNul ∈ msg →
    step { s with pending := .call (.print msg attr) :: rest } =
      step { s with pending := .call (.printAt msg .current .current attr) :: rest }

/-- PRINT_AT of N ≥ 1 characters, none of them a newline, that end within the grid writes them one cell after another from the
start offset and leaves the cursor offset exactly 2 × N past it; bytes outside those cells are as they were (R162, R165 item 2).
The law's own words take in N = 0, where R162 writes no cursor: that case is left out (log 19). The start is the cell of the
coordinates read at COORD_WIDTH (log 24). -/
def Obligations.PrintAdvancesTwoBytesPerCharacter : Prop :=
  ∀ (s : State) (rest : List HostItem) (msg tail : List Byte) (attr : Byte) (col row : Coord) (c r : U32) (p : Nat),
    s.Inv → s.faults = [] → s.refusals = [] →
    s.pending = .call (.printAt (msg ++ s.params.chNul :: tail) col row attr) :: rest →
    (col = .at c ∨ col = .current ∧ c.toNat = 2 * s.cur.toNat % 160 / 2) →
    (row = .at r ∨ row = .current ∧ r.toNat = 2 * s.cur.toNat / 160) →
    p = 2 * (clampRow (s.params.readCoord r) * 80 + clampCol (s.params.readCoord c)) →
    msg ≠ [] → (∀ b ∈ msg, b ≠ s.params.chNewline ∧ b ≠ s.params.chNul) → p + 2 * msg.length ≤ 4000 →
    ∃ k t, runSteps k s = .next t ∧
      (∀ (j : Nat) (h : j < msg.length), t.readFb (p + 2 * j) = msg[j] ∧ t.readFb (p + 2 * j + 1) = attr) ∧
      (∀ q, q < p ∨ p + 2 * msg.length ≤ q → t.readFb q = s.readFb q) ∧
      2 * t.cur.toNat = p + 2 * msg.length ∧ t.sel = some s.params.curLoIdx ∧
      t.pending = rest ∧ t.faults = [] ∧ t.refusals = [] ∧ t.params = s.params

/-- PRINT_AT of N ≥ 1 characters, none of them a newline, wherever it starts (R162, R165 items 2 and 3): character `i` goes to
position `pos i`, positions running to 3998 and then round the last row, 3840, 3842, .., 3998, 3840; a later character at the
same position overwrites an earlier one; every byte outside those cells is as it was; the cursor ends two bytes past the last
position and SEL at CUR_LO_IDX. N = 0 is left out (log 19). The start is the cell of the coordinates read at COORD_WIDTH
(log 24). -/
def Obligations.PrintPastTheEndCyclesTheLastRow : Prop :=
  ∀ (s : State) (rest : List HostItem) (msg tail : List Byte) (attr : Byte) (col row : Coord) (c r : U32) (p : Nat)
    (pos : Nat → Nat),
    s.Inv → s.faults = [] → s.refusals = [] →
    s.pending = .call (.printAt (msg ++ s.params.chNul :: tail) col row attr) :: rest →
    (col = .at c ∨ col = .current ∧ c.toNat = 2 * s.cur.toNat % 160 / 2) →
    (row = .at r ∨ row = .current ∧ r.toNat = 2 * s.cur.toNat / 160) →
    p = 2 * (clampRow (s.params.readCoord r) * 80 + clampCol (s.params.readCoord c)) →
    msg ≠ [] → (∀ b ∈ msg, b ≠ s.params.chNewline ∧ b ≠ s.params.chNul) →
    (∀ i, pos i = if p + 2 * i < 4000 then p + 2 * i else 3840 + (p + 2 * i - 4000) % 160) →
    ∃ k t, runSteps k s = .next t ∧
      (∀ (i : Nat) (h : i < msg.length), (∀ j, i < j → j < msg.length → pos j ≠ pos i) →
        t.readFb (pos i) = msg[i] ∧ t.readFb (pos i + 1) = attr) ∧
      (∀ q, (∀ i, i < msg.length → q ≠ pos i ∧ q ≠ pos i + 1) → t.readFb q = s.readFb q) ∧
      2 * t.cur.toNat = pos (msg.length - 1) + 2 ∧ t.sel = some s.params.curLoIdx ∧
      t.pending = rest ∧ t.faults = [] ∧ t.refusals = [] ∧ t.params = s.params

/-- PRINT_AT of any N ≥ 1 characters, newlines among them (R162, R165 items 2 to 4). `pos i` is the running position before
character `i`: a newline moves it from row `r` to the start of row `r + 1`, or of row 24 from row 24, and writes nothing; another
character is written there and moves it one cell on, from the last cell to 3840. The cursor ends at the start of the row after
a last newline, and two bytes past the last position otherwise. N = 0 is left out (log 19). The start is the cell of the
coordinates read at COORD_WIDTH (log 24). -/
def Obligations.PrintFollowsTheNewlines : Prop :=
  ∀ (s : State) (rest : List HostItem) (msg tail : List Byte) (attr : Byte) (col row : Coord) (c r : U32) (pos : Nat → Nat),
    s.Inv → s.faults = [] → s.refusals = [] →
    s.pending = .call (.printAt (msg ++ s.params.chNul :: tail) col row attr) :: rest →
    (col = .at c ∨ col = .current ∧ c.toNat = 2 * s.cur.toNat % 160 / 2) →
    (row = .at r ∨ row = .current ∧ r.toNat = 2 * s.cur.toNat / 160) →
    msg ≠ [] → (∀ b ∈ msg, b ≠ s.params.chNul) →
    pos 0 = 2 * (clampRow (s.params.readCoord r) * 80 + clampCol (s.params.readCoord c)) →
    (∀ (i : Nat) (h : i < msg.length), pos (i + 1) =
      if msg[i] = s.params.chNewline then (if pos i < 3840 then 160 * (pos i / 160 + 1) else 3840)
      else if pos i + 2 < 4000 then pos i + 2 else 3840) →
    ∃ k t, runSteps k s = .next t ∧
      (∀ (i : Nat) (h : i < msg.length), msg[i] ≠ s.params.chNewline →
        (∀ (j : Nat) (h : j < msg.length), i < j → msg[j] ≠ s.params.chNewline → pos j ≠ pos i) →
        t.readFb (pos i) = msg[i] ∧ t.readFb (pos i + 1) = attr) ∧
      (∀ q, (∀ (i : Nat) (h : i < msg.length), msg[i] ≠ s.params.chNewline → q ≠ pos i ∧ q ≠ pos i + 1) →
        t.readFb q = s.readFb q) ∧
      (∀ (i : Nat) (h : i < msg.length), i + 1 = msg.length →
        2 * t.cur.toNat = if msg[i] = s.params.chNewline then pos (i + 1) else pos i + 2) ∧
      t.sel = some s.params.curLoIdx ∧ t.pending = rest ∧ t.faults = [] ∧ t.refusals = [] ∧ t.params = s.params

/-- PRINT_AT of an empty message writes no cell and does not write the cursor; where a coordinate is Current the GETCUR of the
resolution is still issued, so SEL ends at CUR_HI_IDX, and with both explicit SEL is as it was (R162). On a machine with well-formed parameters
(log 2, log 24). -/
def Obligations.PrintOfAnEmptyMessage : Prop :=
  ∀ (s : State) (rest : List HostItem) (tail : List Byte) (attr : Byte) (col row : Coord),
    s.params.WellFormed → s.faults = [] → s.refusals = [] →
    s.pending = .call (.printAt (s.params.chNul :: tail) col row attr) :: rest →
    ∃ k t, runSteps k s = .next t ∧ t.fb = s.fb ∧ t.cur = s.cur ∧
      (col = .current ∨ row = .current → t.sel = some s.params.curHiIdx) ∧
      (col ≠ .current → row ≠ .current → t.sel = s.sel) ∧
      t.pending = rest ∧ t.faults = [] ∧ t.refusals = [] ∧ t.params = s.params

/-- A PRINT_AT or PRINT whose message holds no CH_NUL cannot be passed: the host issues nothing and the state is as it was (93
U27). The refusal's name, and that the call stays the next item, are the model's (log 12). -/
def Obligations.UnterminatedMessageIsNotPassed : Prop :=
  ∀ (s : State) (rest : List HostItem) (msg : List Byte) (attr : Byte) (col row : Coord),
    s.faults = [] → s.refusals = [] → (∀ b ∈ msg, b ≠ s.params.chNul) →
    (s.pending = .call (.printAt msg col row attr) :: rest ∨ s.pending = .call (.print msg attr) :: rest) →
    step s = .refused (.unterminatedMessage s)
end

