-- ==== Sys2Proof/Laws/Decode.lean ====
section
/-! SUPPORT. The fields of a packed word, and a word as the packing of its fields. -/

namespace Sys2Proof

@[simp] theorem fieldOp_packWord (op : Byte) (a b : U32) (c d : Byte) : fieldOp (packWord op a b c d) = op := by
  apply BitVec.eq_of_getLsbD_eq
  intro i hi
  simp only [fieldOp, packWord, BitVec.getLsbD_extractLsb', BitVec.getLsbD_append]
  simp [hi, show ¬ 80 + i < 8 by omega, show ¬ 80 + i - 8 < 8 by omega, show ¬ 80 + i - 8 - 8 < 32 by omega,
    show ¬ 80 + i - 8 - 8 - 32 < 32 by omega, show 80 + i - 8 - 8 - 32 - 32 = i by omega]

@[simp] theorem fieldA_packWord (op : Byte) (a b : U32) (c d : Byte) : fieldA (packWord op a b c d) = a := by
  apply BitVec.eq_of_getLsbD_eq
  intro i hi
  simp only [fieldA, packWord, BitVec.getLsbD_extractLsb', BitVec.getLsbD_append]
  simp [hi, show ¬ 48 + i < 8 by omega, show ¬ 48 + i - 8 < 8 by omega, show ¬ 48 + i - 8 - 8 < 32 by omega,
    show 48 + i - 8 - 8 - 32 = i by omega]

@[simp] theorem fieldB_packWord (op : Byte) (a b : U32) (c d : Byte) : fieldB (packWord op a b c d) = b := by
  apply BitVec.eq_of_getLsbD_eq
  intro i hi
  simp only [fieldB, packWord, BitVec.getLsbD_extractLsb', BitVec.getLsbD_append]
  simp [hi, show ¬ 16 + i < 8 by omega, show ¬ 16 + i - 8 < 8 by omega, show 16 + i - 8 - 8 = i by omega]

@[simp] theorem fieldC_packWord (op : Byte) (a b : U32) (c d : Byte) : fieldC (packWord op a b c d) = c := by
  apply BitVec.eq_of_getLsbD_eq
  intro i hi
  simp only [fieldC, packWord, BitVec.getLsbD_extractLsb', BitVec.getLsbD_append]
  simp [hi, show ¬ 8 + i < 8 by omega, show 8 + i - 8 = i by omega]

@[simp] theorem fieldD_packWord (op : Byte) (a b : U32) (c d : Byte) : fieldD (packWord op a b c d) = d := by
  apply BitVec.eq_of_getLsbD_eq
  intro i hi
  simp only [fieldD, packWord, BitVec.getLsbD_extractLsb', BitVec.getLsbD_append]
  simp [hi]

/-- Every word is the packing of its five fields: they cover all 88 bits. -/
theorem packWord_fields (w : CommandWord) : packWord (fieldOp w) (fieldA w) (fieldB w) (fieldC w) (fieldD w) = w := by
  apply BitVec.eq_of_getLsbD_eq
  intro i hi
  simp only [fieldOp, fieldA, fieldB, fieldC, fieldD, packWord, BitVec.getLsbD_extractLsb', BitVec.getLsbD_append]
  by_cases h1 : i < 8
  · simp [h1]
  by_cases h2 : i < 16
  · simp [h1, show i - 8 < 8 by omega, show 8 + (i - 8) = i by omega]
  by_cases h3 : i < 48
  · simp [h1, show ¬ i - 8 < 8 by omega, show i - 8 - 8 < 32 by omega, show 16 + (i - 8 - 8) = i by omega]
  by_cases h4 : i < 80
  · simp [h1, show ¬ i - 8 < 8 by omega, show ¬ i - 8 - 8 < 32 by omega, show i - 8 - 8 - 32 < 32 by omega,
      show 48 + (i - 8 - 8 - 32) = i by omega]
  · simp [h1, show ¬ i - 8 < 8 by omega, show ¬ i - 8 - 8 < 32 by omega, show ¬ i - 8 - 8 - 32 < 32 by omega,
      show i - 8 - 8 - 32 - 32 < 8 by omega, show 80 + (i - 8 - 8 - 32 - 32) = i by omega]

@[simp] theorem lowHalf_wideHalf (v : U16) : lowHalf (wideHalf v) = v := by
  apply BitVec.eq_of_toNat_eq
  simp [lowHalf, wideHalf]
  exact v.isLt

@[simp] theorem highHalf_wideHalf (v : U16) : highHalf (wideHalf v) = 0 := by
  apply BitVec.eq_of_toNat_eq
  simp [highHalf, wideHalf, Nat.shiftRight_eq_div_pow]
  have := v.isLt
  omega

/-- A field whose high half is zero is its low half widened. -/
theorem wideHalf_lowHalf {v : U32} (h : highHalf v = 0) : wideHalf (lowHalf v) = v := by
  have h' := congrArg BitVec.toNat h
  apply BitVec.eq_of_toNat_eq
  simp [highHalf, lowHalf, wideHalf, Nat.shiftRight_eq_div_pow] at h' ⊢
  omega

/-- The number of a row selects that row. -/
@[simp] theorem opcodeOf_opcodeNumber (o : Opcode) : opcodeOf (opcodeNumber o) = some o := by cases o <;> rfl

/-- A selected row has the number that selected it. -/
theorem opcodeNumber_of_opcodeOf {op : Byte} {o : Opcode} (h : opcodeOf op = some o) : opcodeNumber o = op := by
  revert op o
  decide

/-- The decoder answers an instruction exactly where the OP selects a row and the row's reserved fields are zero. -/
theorem decode_eq_ok {w : CommandWord} {i : Instr} :
    decode w = .ok i ↔ ∃ o, opcodeOf (fieldOp w) = some o ∧ reservedClear o w = true ∧ readOperands o w = i := by
  unfold decode
  cases h : opcodeOf (fieldOp w) with
  | none => simp
  | some o => cases hr : reservedClear o w <;> simp [hr]

end Sys2Proof
end

