-- ==== Sys2Proof/Laws/Memory.lean ====
section
/-! SUPPORT. The laws of the framebuffer: a read after a write, the canonical form, and that memories in canonical form with
equal reads are equal. -/

namespace Sys2Proof.Machine

@[simp] theorem Memory.read_nil (i : Nat) : Memory.read [] i = unlisted i := rfl

theorem Memory.read_cons (j : Nat) (v : Byte) (m : Memory) (i : Nat) :
    Memory.read ((j, v) :: m) i = if i = j then v else Memory.read m i := rfl

/-- An offset that no entry lists reads as its draw. -/
theorem Memory.read_of_not_listed {m : Memory} {i : Nat} (h : ∀ c ∈ m, c.1 ≠ i) : m.read i = unlisted i := by
  induction m with
  | nil => rfl
  | cons c m ih =>
    rw [Memory.read_cons, if_neg (h c (by simp)).symm, ih fun d hd => h d (by simp [hd])]

/-- Strictly rising offsets: what `Memory.wf` says of the order. -/
abbrev Memory.Rising (m : Memory) : Prop := m.Pairwise fun a b => a.1 < b.1

theorem Memory.read_erase_ne {m : Memory} {i k : Nat} (h : k ≠ i) : (m.erase i).read k = m.read k := by
  induction m with
  | nil => rfl
  | cons c m ih =>
    obtain ⟨j, x⟩ := c
    unfold Memory.erase
    split
    · next hj => rw [Memory.read_cons, if_neg (hj ▸ h)]
    · rw [Memory.read_cons, Memory.read_cons, ih]

theorem Memory.read_insert {m : Memory} (i : Nat) (v : Byte) (k : Nat) :
    (m.insert i v).read k = if k = i then v else m.read k := by
  induction m with
  | nil => rfl
  | cons c m ih =>
    obtain ⟨j, x⟩ := c
    unfold Memory.insert
    split
    · rfl
    · split
      · next hj =>
        subst hj
        simp only [Memory.read_cons]
        split <;> rfl
      · next hj =>
        simp only [Memory.read_cons, ih]
        split
        · next hk => rw [if_neg (by omega)]
        · rfl

/-- A write leaves every other offset alone, whatever the memory. -/
theorem Memory.read_write_ne {m : Memory} {i k : Nat} (v : Byte) (h : k ≠ i) :
    (m.write i v).read k = m.read k := by
  unfold Memory.write
  split
  · exact read_erase_ne h
  · rw [read_insert, if_neg h]

theorem Memory.mem_erase {m : Memory} {i : Nat} {c : Host.Cell} (h : c ∈ m.erase i) : c ∈ m := by
  induction m with
  | nil => exact h
  | cons d m ih =>
    obtain ⟨j, x⟩ := d
    unfold Memory.erase at h
    split at h
    · exact List.mem_cons_of_mem _ h
    · rcases List.mem_cons.1 h with rfl | h
      · exact List.mem_cons_self
      · exact List.mem_cons_of_mem _ (ih h)

theorem Memory.mem_insert {m : Memory} {i : Nat} {v : Byte} {c : Host.Cell} (h : c ∈ m.insert i v) :
    c = (i, v) ∨ c ∈ m := by
  induction m with
  | nil => exact .inl (by simpa [Memory.insert] using h)
  | cons d m ih =>
    obtain ⟨j, x⟩ := d
    unfold Memory.insert at h
    split at h
    · exact List.mem_cons.1 h
    · split at h
      · exact (List.mem_cons.1 h).imp_right (List.mem_cons_of_mem _)
      · rcases List.mem_cons.1 h with rfl | h
        · exact .inr List.mem_cons_self
        · exact (ih h).imp_right (List.mem_cons_of_mem _)

theorem Memory.erase_rising {m : Memory} (hm : m.Rising) (i : Nat) : (m.erase i).Rising := by
  induction m with
  | nil => exact hm
  | cons c m ih =>
    obtain ⟨j, x⟩ := c
    have hc := List.pairwise_cons.1 hm
    unfold Memory.erase
    split
    · exact hc.2
    · exact List.pairwise_cons.2 ⟨fun d hd => hc.1 d (mem_erase hd), ih hc.2⟩

theorem Memory.insert_rising {m : Memory} (hm : m.Rising) (i : Nat) (v : Byte) : (m.insert i v).Rising := by
  induction m with
  | nil => exact List.pairwise_singleton _ _
  | cons c m ih =>
    obtain ⟨j, x⟩ := c
    have hc := List.pairwise_cons.1 hm
    unfold Memory.insert
    split
    · next hlt =>
      refine List.pairwise_cons.2 ⟨fun d hd => ?_, hm⟩
      rcases List.mem_cons.1 hd with rfl | hd
      · exact hlt
      · exact hlt.trans (hc.1 d hd)
    · split
      · next hj => subst hj; exact List.pairwise_cons.2 ⟨hc.1, hc.2⟩
      · next hlt hj =>
        refine List.pairwise_cons.2 ⟨fun d hd => ?_, ih hc.2⟩
        rcases mem_insert hd with rfl | hd
        · show j < i; omega
        · exact hc.1 d hd

theorem Memory.read_erase_same {m : Memory} (hm : m.Rising) (i : Nat) : (m.erase i).read i = unlisted i := by
  induction m with
  | nil => rfl
  | cons c m ih =>
    obtain ⟨j, x⟩ := c
    have hc := List.pairwise_cons.1 hm
    unfold Memory.erase
    split
    · next hj => subst hj; exact read_of_not_listed fun d hd => (hc.1 d hd).ne'
    · next hj => rw [Memory.read_cons, if_neg hj, ih hc.2]

/-- A read of the offset written gives the value written. -/
theorem Memory.read_write_same {m : Memory} (hm : m.Rising) (i : Nat) (v : Byte) : (m.write i v).read i = v := by
  unfold Memory.write
  split
  · next hv => rw [read_erase_same hm, hv]
  · rw [read_insert, if_pos rfl]

/-- What a read gives after a write. -/
theorem Memory.read_write {m : Memory} (hm : m.Rising) (i : Nat) (v : Byte) (k : Nat) :
    (m.write i v).read k = if k = i then v else m.read k := by
  split
  · next h => subst h; exact read_write_same hm _ _
  · next h => exact read_write_ne v h

/-- An entry after a write is the one written or was there before. -/
theorem Memory.mem_write {m : Memory} {i : Nat} {v : Byte} {c : Host.Cell} (h : c ∈ m.write i v) :
    (c = (i, v) ∧ v ≠ unlisted i) ∨ c ∈ m := by
  unfold Memory.write at h
  split at h
  · exact .inr (mem_erase h)
  · next hv => exact (mem_insert h).imp_left fun hc => ⟨hc, hv⟩

theorem Memory.write_rising {m : Memory} (hm : m.Rising) (i : Nat) (v : Byte) : (m.write i v).Rising := by
  unfold Memory.write
  split
  · exact erase_rising hm i
  · exact insert_rising hm i v

/-- A write inside the framebuffer keeps the canonical form. -/
theorem Memory.write_wf {m : Memory} (hm : m.wf) {i : Nat} (hi : i < fbSize) (v : Byte) : (m.write i v).wf := by
  refine ⟨write_rising hm.1 i v, fun c hc => ?_⟩
  rcases mem_write hc with ⟨rfl, hv⟩ | hc
  · exact ⟨hi, hv⟩
  · exact hm.2 c hc

theorem Memory.nil_wf : Memory.wf [] := ⟨List.Pairwise.nil, by simp⟩

theorem Memory.read_of_mem {m : Memory} (hm : m.Rising) {c : Host.Cell} (hc : c ∈ m) : m.read c.1 = c.2 := by
  induction m with
  | nil => simp at hc
  | cons d m ih =>
    rw [Memory.Rising, List.pairwise_cons] at hm
    obtain ⟨j, x⟩ := d
    rcases List.mem_cons.1 hc with rfl | h
    · rw [Memory.read_cons, if_pos rfl]
    · rw [Memory.read_cons, if_neg (hm.1 c h).ne', ih hm.2 h]

/-- An offset whose value is not its draw is listed. -/
theorem Memory.mem_of_read_ne {m : Memory} {i : Nat} (h : m.read i ≠ unlisted i) : (i, m.read i) ∈ m := by
  induction m with
  | nil => exact absurd rfl h
  | cons d m ih =>
    obtain ⟨j, x⟩ := d
    rw [Memory.read_cons] at h ⊢
    split at h
    · next hj => subst hj; rw [if_pos rfl]; exact List.mem_cons_self
    · next hj => rw [if_neg hj]; exact List.mem_cons_of_mem _ (ih h)

/-- Memories in canonical form that read alike are equal. -/
theorem Memory.ext_of_wf {m n : Memory} (hm : m.wf) (hn : n.wf) (h : ∀ i, m.read i = n.read i) : m = n := by
  have sub : ∀ {a b : Memory}, a.wf → (∀ i, a.read i = b.read i) → ∀ c ∈ a, c ∈ b := by
    intro a b ha hab c hc
    have hr := read_of_mem ha.1 hc
    have hne : b.read c.1 ≠ unlisted c.1 := by rw [← hab, hr]; exact (ha.2 c hc).2
    have := mem_of_read_ne hne
    rwa [← hab, hr] at this
  have irr : ∀ a : Memory, a.Rising → a.Nodup := fun a ha => ha.imp fun {x y} hxy hxy' => by subst hxy'; omega
  refine List.Perm.eq_of_pairwise (le := fun a b => a.1 < b.1) (fun a b _ _ hab hba => by omega) hm.1 hn.1 ?_
  exact (List.perm_ext_iff_of_nodup (irr m hm.1) (irr n hn.1)).2 fun c => ⟨sub hm h c, sub hn (fun i => (h i).symm) c⟩

end Sys2Proof.Machine
end

