-- ==== Sys2Proof/Laws/Parameters.lean ====
section
/-! SUPPORT. What a field reads as at a width, and which values the reading does not change (00_scope.md R5, R8). -/

namespace Sys2Proof.Machine

/-- `zext_n` as a number: what is left modulo 2^n. -/
theorem zextN_toNat {w : Nat} (n : Nat) (v : BitVec w) : (zextN n v).toNat = v.toNat % 2 ^ n := by
  have h : v.toNat % 2 ^ n < 2 ^ w := (Nat.mod_le _ _).trans_lt v.isLt
  simp [zextN, Nat.mod_eq_of_lt h]

/-- A value of `n` bits is its own `zext_n`. -/
theorem zextN_of_lt {w n : Nat} {v : BitVec w} (h : v.toNat < 2 ^ n) : zextN n v = v :=
  BitVec.eq_of_toNat_eq (by rw [zextN_toNat, Nat.mod_eq_of_lt h])

/-- At the field's own width or above, `zext_n` is the field. -/
theorem zextN_of_le {w n : Nat} (h : w ≤ n) (v : BitVec w) : zextN n v = v :=
  zextN_of_lt (v.isLt.trans_le (Nat.pow_le_pow_right (by decide) h))

/-- `sext_n` as a number, for a width up to the field's: the low `n` bits as two's complement. -/
theorem sextN_toInt {w n : Nat} (h : n ≤ w) (v : BitVec w) : (sextN n v).toInt = (v.setWidth n).toInt :=
  BitVec.toInt_signExtend_of_le h

/-- A value below half of 2^n is its own `sext_n`. -/
theorem sextN_of_lt {w n : Nat} (h : n ≤ w) {v : BitVec w} (hv : v.toNat < 2 ^ (n - 1)) : sextN n v = v := by
  have h1 : 2 ^ (n - 1) ≤ 2 ^ (w - 1) := Nat.pow_le_pow_right (by decide) (by omega)
  have h2 : 2 ^ (n - 1) ≤ 2 ^ n := Nat.pow_le_pow_right (by decide) (by omega)
  have hn : (v.setWidth n).toNat = v.toNat := by rw [BitVec.toNat_setWidth, Nat.mod_eq_of_lt (by omega)]
  refine BitVec.eq_of_toInt_eq ?_
  rw [sextN_toInt h, BitVec.toInt_eq_toNat_of_lt, BitVec.toInt_eq_toNat_of_lt, hn]
  · cases w with
    | zero => have := v.isLt; omega
    | succ k => rw [Nat.pow_succ]; simp only [Nat.add_sub_cancel] at h1; omega
  · cases n with
    | zero => simp only [Nat.mul_comm]; omega
    | succ k => rw [hn, Nat.pow_succ]; simp only [Nat.add_sub_cancel] at hv; omega

/-- At the field's own width, `sext_n` is the field. -/
theorem sextN_self {w : Nat} (v : BitVec w) : sextN w v = v := by simp [sextN]

/-- Reading a second time at the same width changes nothing. -/
theorem sextN_sextN {w : Nat} (n : Nat) (v : BitVec w) : sextN n (sextN n v) = sextN n v := by
  have h : (sextN n v).setWidth n = v.setWidth n := by
    refine BitVec.eq_of_getLsbD_eq fun i hi => ?_
    simp only [sextN, BitVec.getLsbD_setWidth, BitVec.getLsbD_signExtend, hi, decide_true, Bool.true_and, if_true]
    by_cases hw : i < w
    · simp [hw]
    · simp [hw, BitVec.getLsbD_of_ge v i (by omega)]
  unfold sextN at h ⊢
  rw [h]

/-- `sext_n` in two cases on the number `v mod 2^n`: itself below half of 2^n, else less 2^n. -/
theorem sextN_cases {w n : Nat} (h0 : 0 < n) (h : n ≤ w) (v : BitVec w) :
    (v.toNat % 2 ^ n < 2 ^ (n - 1) → (sextN n v).toInt = v.toNat % 2 ^ n) ∧
    (2 ^ (n - 1) ≤ v.toNat % 2 ^ n → (sextN n v).toInt = v.toNat % 2 ^ n - 2 ^ n) := by
  obtain ⟨k, rfl⟩ : ∃ k, n = k + 1 := ⟨n - 1, by omega⟩
  have hp : 2 ^ (k + 1) = 2 ^ k * 2 := Nat.pow_succ ..
  rw [sextN_toInt h, BitVec.toInt_eq_toNat_cond, BitVec.toNat_setWidth]
  simp only [Nat.add_sub_cancel]
  refine ⟨fun hv => ?_, fun hv => ?_⟩
  · rw [if_pos (by omega)]; push_cast; rfl
  · rw [if_neg (by omega)]; push_cast; rfl

end Sys2Proof.Machine

namespace Sys2Proof

open Machine

theorem Params.readPort_of_lt {p : Params} {v : U16} (h : v.toNat < 2 ^ p.portWidth) : p.readPort v = v := zextN_of_lt h
theorem Params.readOffset_of_lt {p : Params} {v : U32} (h : v.toNat < 2 ^ p.offsetWidth) : p.readOffset v = v := zextN_of_lt h
theorem Params.keepCur_of_lt {p : Params} {v : U16} (h : v.toNat < 2 ^ p.curWidth) : p.keepCur v = v := zextN_of_lt h
theorem Params.readCoord_of_lt {p : Params} (h : p.coordWidth ≤ 32) {v : U32} (hv : v.toNat < 2 ^ (p.coordWidth - 1)) :
    p.readCoord v = v := sextN_of_lt h hv

/-- The selector port is read as itself. -/
theorem Params.readPort_selPort {p : Params} (h : p.WellFormed) : p.readPort p.selPort = p.selPort :=
  readPort_of_lt h.2.2.2.1

/-- The data port is read as itself. -/
theorem Params.readPort_dataPort {p : Params} (h : p.WellFormed) : p.readPort p.dataPort = p.dataPort :=
  readPort_of_lt h.2.2.2.2.1

/-- What the cursor register keeps, as a number (R22). -/
theorem Params.keepCur_toNat (p : Params) (v : U16) : (p.keepCur v).toNat = v.toNat % 2 ^ p.curWidth := zextN_toNat _ v

/-- An offset operand as a number (R61). -/
theorem Params.readOffset_toNat (p : Params) (v : U32) : (p.readOffset v).toNat = v.toNat % 2 ^ p.offsetWidth := zextN_toNat _ v

/-- A well-formed cursor register has 11 to 16 bits: its size is at least 2048 and a multiple of 256 that divides 65536. -/
theorem Params.curSize {p : Params} (h : p.WellFormed) :
    2048 ≤ 2 ^ p.curWidth ∧ 2 ^ p.curWidth % 256 = 0 ∧ 65536 % 2 ^ p.curWidth = 0 := by
  obtain ⟨-, -, -, -, -, -, -, h16, -, -, h11, -⟩ := h
  revert h16 h11
  generalize p.curWidth = n
  intro h16 h11
  interval_cases n <;> decide

/-- Every cursor offset is an offset (R120). -/
theorem Params.twice_curSize_le {p : Params} (h : p.WellFormed) : 2 * 2 ^ p.curWidth ≤ 2 ^ p.offsetWidth := by
  obtain ⟨-, -, -, -, -, -, -, -, -, -, -, h, -⟩ := h
  rw [Nat.mul_comm, ← Nat.pow_succ]
  exact Nat.pow_le_pow_right (by decide) h

/-- Every offset of the grid and the next offset after the last cell are read as themselves (R61, R141). -/
theorem Params.readOffset_of_le {p : Params} (h : p.WellFormed) {v : U32} (hv : v.toNat ≤ 4000) : p.readOffset v = v :=
  readOffset_of_lt (by have := curSize h; have := twice_curSize_le h; omega)

/-- Every number up to 127 is read as itself as a coordinate (R61). -/
theorem Params.readCoord_of_le {p : Params} (h : p.WellFormed) {v : U32} (hv : v.toNat < 128) : p.readCoord v = v := by
  obtain ⟨-, -, -, -, -, -, -, -, h32, -, -, -, -, h8⟩ := h
  have h7 : 2 ^ 7 ≤ 2 ^ (p.coordWidth - 1) := Nat.pow_le_pow_right (by decide) (by omega)
  exact readCoord_of_lt h32 (by omega)

/-- The quotient by 160 of any offset is read as itself as a coordinate (R102, R105). -/
theorem Params.readCoord_of_row {p : Params} (h : p.WellFormed) {v : U32} {o : Nat} (ho : o < 2 ^ p.offsetWidth)
    (hv : v.toNat = o / 160) : p.readCoord v = v := by
  obtain ⟨-, -, -, -, -, -, -, -, h32, -, -, -, h6, h8⟩ := h
  refine readCoord_of_lt h32 ?_
  have h1 : 2 ^ p.offsetWidth ≤ 2 ^ (p.coordWidth - 1) * 2 ^ 7 := by
    rw [← Nat.pow_add]
    exact Nat.pow_le_pow_right (by decide) (by omega)
  omega

end Sys2Proof
end

