-- ==== Sys2Proof/Laws/Operands.lean ====
section
/-! SUPPORT. The ranges of the clamps and of the address calculator's results (41_addressing.md R100 to R106), and the two
halves of the cursor value (42_cursor.md R120). -/

namespace Sys2Proof.Machine

/-- A clamped column is 0 .. 79 (R100). -/
theorem clampCol_lt (c : U32) : clampCol c < 80 := by
  unfold clampCol clamp cols
  split
  · simp
  · split <;> omega

/-- A clamped row is 0 .. 24 (R100). -/
theorem clampRow_lt (r : U32) : clampRow r < 25 := by
  unfold clampRow clamp rows
  split
  · simp
  · split <;> omega

/-- A column already in the grid is not changed by the clamp (R100). -/
theorem clampCol_of_lt {c : U32} (h : c.toNat < 80) : clampCol c = c.toNat := by
  have hi : c.toInt = c.toNat := by rw [BitVec.toInt_eq_toNat_cond]; split <;> omega
  unfold clampCol clamp cols
  rw [hi]
  split
  · omega
  · split <;> omega

/-- A row already in the grid is not changed by the clamp (R100). -/
theorem clampRow_of_lt {r : U32} (h : r.toNat < 25) : clampRow r = r.toNat := by
  have hi : r.toInt = r.toNat := by rw [BitVec.toInt_eq_toNat_cond]; split <;> omega
  unfold clampRow clamp rows
  rw [hi]
  split
  · omega
  · split <;> omega

/-- A row past the grid (as a small unsigned number) clamps to 24 (R100). -/
theorem clampRow_of_ge {r : U32} (h : 25 ≤ r.toNat) (h' : r.toNat < 2 ^ 31) : clampRow r = 24 := by
  have hi : r.toInt = r.toNat := by rw [BitVec.toInt_eq_toNat_cond]; split <;> omega
  unfold clampRow clamp rows
  rw [hi]
  split
  · omega
  · split <;> omega

/-- The offset of a grid cell as a number (R101, R106: nothing wraps). -/
theorem cellOffset_toNat {c r : Nat} (hc : c < 80) (hr : r < 25) : (cellOffset c r).toNat = 2 * (r * 80 + c) := by
  unfold cellOffset cellBytes cols
  rw [BitVec.toNat_ofNat, Nat.mod_eq_of_lt]
  omega

/-- OFFSET as a number (R101). -/
theorem offsetOf_toNat (col row : U32) : (offsetOf col row).toNat = 2 * (clampRow row * 80 + clampCol col) :=
  cellOffset_toNat (clampCol_lt col) (clampRow_lt row)

/-- "Every offset the calculator produces is even and lies in 0..3998" (R100). -/
theorem offsetOf_range (col row : U32) : (offsetOf col row).toNat % 2 = 0 ∧ (offsetOf col row).toNat ≤ 3998 := by
  have hc := clampCol_lt col
  have hr := clampRow_lt row
  rw [offsetOf_toNat]
  omega

/-- ROWOF as a number (R102, R106). -/
theorem rowOf_toNat (off : U32) : (rowOf off).toNat = off.toNat / 160 := by
  have := off.isLt
  unfold rowOf cellBytes cols
  rw [BitVec.toNat_ofNat, Nat.mod_eq_of_lt]
  omega

/-- COLOF as a number: `(off mod 160) div 2` (R103). -/
theorem colOf_toNat (off : U32) : (colOf off).toNat = off.toNat % 160 / 2 := by
  have := off.isLt
  simp only [colOf, rowBytes, cellBytes, cols]
  rw [BitVec.toNat_ofNat, Nat.mod_eq_of_lt] <;> omega

/-- The next offset of a newline as a number: the start of the row below, or of row 24 (R141). -/
theorem newlineOffset_toNat (col row : U32) :
    (newlineOffset (offsetOf col row)).toNat = 160 * min (clampRow row + 1) 24 := by
  have hr := clampRow_lt row
  have hc := clampCol_lt col
  have h1 : (rowOf (offsetOf col row) + 1).toNat = clampRow row + 1 := by
    rw [BitVec.toNat_add, rowOf_toNat, offsetOf_toNat, show (1 : U32).toNat = 1 from rfl]
    omega
  have h0 : clampCol 0 = 0 := by decide
  rw [newlineOffset, offsetOf_toNat, h0]
  by_cases h : clampRow row + 1 < 25
  · rw [clampRow_of_lt (by omega), h1]; omega
  · rw [clampRow_of_ge (by omega) (by omega)]; omega

/-- The offset of cell number `k` in row-major order is `2k` (R25, R142). -/
theorem cellOffset_of_number {k : Nat} (hk : k < 2000) : (cellOffset (k % cols) (k / cols)).toNat = 2 * k := by
  unfold cols
  rw [cellOffset_toNat (by omega) (by omega)]
  omega

@[simp] theorem highByte_append (h l : Byte) : highByte (h ++ l) = h := by
  apply BitVec.eq_of_getLsbD_eq
  intro i hi
  simp only [highByte, BitVec.getLsbD_extractLsb', BitVec.getLsbD_append]
  simp [hi, show ¬ 8 + i < 8 by omega, show 8 + i - 8 = i by omega]

@[simp] theorem lowByte_append (h l : Byte) : lowByte (h ++ l) = l := by
  apply BitVec.eq_of_getLsbD_eq
  intro i hi
  simp only [lowByte, BitVec.getLsbD_extractLsb', BitVec.getLsbD_append]
  simp [hi]

/-- A 16-bit value is its two bytes, the high one above (R43). -/
@[simp] theorem highByte_append_lowByte (v : U16) : highByte v ++ lowByte v = v := by
  apply BitVec.eq_of_getLsbD_eq
  intro i hi
  simp only [highByte, lowByte, BitVec.getLsbD_append, BitVec.getLsbD_extractLsb']
  by_cases h : i < 8
  · simp [h]
  · simp [h, show i - 8 < 8 by omega, show 8 + (i - 8) = i by omega]

theorem highByte_toNat (v : U16) : (highByte v).toNat = v.toNat / 256 := by
  have := v.isLt
  simp [highByte, Nat.shiftRight_eq_div_pow]
  omega

theorem lowByte_toNat (v : U16) : (lowByte v).toNat = v.toNat % 256 := by
  simp [lowByte]

/-- The cursor offset read is `CUR × 2` (R22, R120, R121). -/
theorem cursorOffset_toNat (v : U16) : (cursorOffset (highByte v) (lowByte v)).toNat = 2 * v.toNat := by
  have hv := v.isLt
  have hh := highByte_toNat v
  have hl := lowByte_toNat v
  have hor : ((highByte v).setWidth 32 <<< 8 ||| (lowByte v).setWidth 32 : U32).toNat = v.toNat := by
    rw [BitVec.toNat_or, BitVec.toNat_shiftLeft, BitVec.toNat_setWidth, BitVec.toNat_setWidth, hh, hl,
      Nat.mod_eq_of_lt (a := v.toNat / 256) (by omega), Nat.mod_eq_of_lt (a := v.toNat % 256) (by omega),
      Nat.shiftLeft_eq, Nat.mod_eq_of_lt (a := v.toNat / 256 * 2 ^ 8) (by omega), Nat.mul_comm,
      ← Nat.two_pow_add_eq_or_of_lt (by omega)]
    omega
  rw [cursorOffset, BitVec.toNat_mul, hor, show (2 : U32).toNat = 2 from rfl]
  omega

/-- What SETCUR stores, as a number (R122). -/
theorem cursorValue_toNat {p : Params} (h : p.WellFormed) (off : U32) :
    (cursorValue p off).toNat = off.toNat / 2 % 2 ^ p.curWidth := by
  have hc := Params.curSize h
  have hp : 0 < 2 ^ p.curWidth := Nat.two_pow_pos _
  have hm := Nat.mod_lt (off.toNat / 2) hp
  have hd : 2 ^ p.curWidth ≤ 65536 := Nat.le_of_dvd (by decide) (Nat.dvd_of_mod_eq_zero hc.2.2)
  rw [cursorValue, BitVec.toNat_ofNat, Nat.mod_eq_of_lt (a := off.toNat / 2 % 2 ^ p.curWidth)]
  omega

/-- Two bytes as a 16-bit value (R8, R43). -/
theorem append_toNat (h l : Byte) : (h ++ l : U16).toNat = h.toNat * 256 + l.toNat := by
  rw [BitVec.toNat_append, Nat.shiftLeft_eq, Nat.mul_comm, ← Nat.two_pow_add_eq_or_of_lt l.isLt]

/-- The high byte of a value the register can hold, above any low byte, is kept whole (R5, R81). -/
theorem keepCur_highByte_append {p : Params} (h : p.WellFormed) {v : U16} (hv : v.toNat < 2 ^ p.curWidth) (l : Byte) :
    p.keepCur (highByte v ++ l) = highByte v ++ l := by
  have hc := Params.curSize h
  have hl := l.isLt
  refine Params.keepCur_of_lt ?_
  rw [append_toNat, highByte_toNat]
  omega

end Sys2Proof.Machine
end

