-- ==== Sys2Proof/Laws/State.lean ====
section
/-! SUPPORT. Per field, what each named update of the state leaves in it (all by rfl), and what ending a command gives. -/

namespace Sys2Proof.Machine

/-! ## The start of a run -/

@[simp] theorem State.resetWith_params (p : Params) : (State.resetWith p).params = p := rfl
@[simp] theorem State.resetWith_sel (p : Params) : (State.resetWith p).sel = none := rfl
@[simp] theorem State.resetWith_cur (p : Params) : (State.resetWith p).cur = p.keepCur Config.resetCur := rfl
@[simp] theorem State.resetWith_fb (p : Params) : (State.resetWith p).fb = [] := rfl
@[simp] theorem State.resetWith_faults (p : Params) : (State.resetWith p).faults = [] := rfl
@[simp] theorem State.resetWith_refusals (p : Params) : (State.resetWith p).refusals = [] := rfl
@[simp] theorem State.resetWith_response (p : Params) : (State.resetWith p).response = none := rfl
@[simp] theorem State.resetWith_pending (p : Params) : (State.resetWith p).pending = [] := rfl
@[simp] theorem State.resetWith_names (p : Params) : (State.resetWith p).names = [] := rfl
@[simp] theorem State.resetWith_drawn (p : Params) : (State.resetWith p).drawn = 0 := rfl

/-! ## Writing one framebuffer byte -/

@[simp] theorem State.writeFb_params (s : State) (i : Nat) (v : Byte) : (s.writeFb i v).params = s.params := rfl
@[simp] theorem State.writeFb_sel (s : State) (i : Nat) (v : Byte) : (s.writeFb i v).sel = s.sel := rfl
@[simp] theorem State.writeFb_cur (s : State) (i : Nat) (v : Byte) : (s.writeFb i v).cur = s.cur := rfl
@[simp] theorem State.writeFb_fb (s : State) (i : Nat) (v : Byte) : (s.writeFb i v).fb = s.fb.write i v := rfl
@[simp] theorem State.writeFb_faults (s : State) (i : Nat) (v : Byte) : (s.writeFb i v).faults = s.faults := rfl
@[simp] theorem State.writeFb_refusals (s : State) (i : Nat) (v : Byte) : (s.writeFb i v).refusals = s.refusals := rfl
@[simp] theorem State.writeFb_response (s : State) (i : Nat) (v : Byte) : (s.writeFb i v).response = s.response := rfl
@[simp] theorem State.writeFb_pending (s : State) (i : Nat) (v : Byte) : (s.writeFb i v).pending = s.pending := rfl
@[simp] theorem State.writeFb_names (s : State) (i : Nat) (v : Byte) : (s.writeFb i v).names = s.names := rfl
@[simp] theorem State.writeFb_drawn (s : State) (i : Nat) (v : Byte) : (s.writeFb i v).drawn = s.drawn := rfl

/-! ## Writing one cell -/

@[simp] theorem State.putCell_params (s : State) (o : U32) (c a : Byte) : (s.putCell o c a).params = s.params := rfl
@[simp] theorem State.putCell_sel (s : State) (o : U32) (c a : Byte) : (s.putCell o c a).sel = s.sel := rfl
@[simp] theorem State.putCell_cur (s : State) (o : U32) (c a : Byte) : (s.putCell o c a).cur = s.cur := rfl
@[simp] theorem State.putCell_fb (s : State) (o : U32) (c a : Byte) :
    (s.putCell o c a).fb = s.fb.putCell o c a := rfl
@[simp] theorem State.putCell_faults (s : State) (o : U32) (c a : Byte) : (s.putCell o c a).faults = s.faults := rfl
@[simp] theorem State.putCell_refusals (s : State) (o : U32) (c a : Byte) : (s.putCell o c a).refusals = s.refusals := rfl
@[simp] theorem State.putCell_response (s : State) (o : U32) (c a : Byte) : (s.putCell o c a).response = s.response := rfl
@[simp] theorem State.putCell_pending (s : State) (o : U32) (c a : Byte) : (s.putCell o c a).pending = s.pending := rfl
@[simp] theorem State.putCell_names (s : State) (o : U32) (c a : Byte) : (s.putCell o c a).names = s.names := rfl
@[simp] theorem State.putCell_drawn (s : State) (o : U32) (c a : Byte) : (s.putCell o c a).drawn = s.drawn := rfl

/-! ## Writing every cell -/

@[simp] theorem State.fillGrid_params (s : State) (c a : Byte) : (s.fillGrid c a).params = s.params := rfl
@[simp] theorem State.fillGrid_sel (s : State) (c a : Byte) : (s.fillGrid c a).sel = s.sel := rfl
@[simp] theorem State.fillGrid_cur (s : State) (c a : Byte) : (s.fillGrid c a).cur = s.cur := rfl
@[simp] theorem State.fillGrid_fb (s : State) (c a : Byte) :
    (s.fillGrid c a).fb = s.fb.fillCells c a (rows * cols) := rfl
@[simp] theorem State.fillGrid_faults (s : State) (c a : Byte) : (s.fillGrid c a).faults = s.faults := rfl
@[simp] theorem State.fillGrid_refusals (s : State) (c a : Byte) : (s.fillGrid c a).refusals = s.refusals := rfl
@[simp] theorem State.fillGrid_response (s : State) (c a : Byte) : (s.fillGrid c a).response = s.response := rfl
@[simp] theorem State.fillGrid_pending (s : State) (c a : Byte) : (s.fillGrid c a).pending = s.pending := rfl
@[simp] theorem State.fillGrid_names (s : State) (c a : Byte) : (s.fillGrid c a).names = s.names := rfl
@[simp] theorem State.fillGrid_drawn (s : State) (c a : Byte) : (s.fillGrid c a).drawn = s.drawn := rfl

/-! ## Recording a fault -/

@[simp] theorem State.recordFault_params (s : State) (r : FaultReason) (w : CommandWord) (o : Option U32) :
    (s.recordFault r w o).params = s.params := rfl
@[simp] theorem State.recordFault_sel (s : State) (r : FaultReason) (w : CommandWord) (o : Option U32) :
    (s.recordFault r w o).sel = s.sel := rfl
@[simp] theorem State.recordFault_cur (s : State) (r : FaultReason) (w : CommandWord) (o : Option U32) :
    (s.recordFault r w o).cur = s.cur := rfl
@[simp] theorem State.recordFault_fb (s : State) (r : FaultReason) (w : CommandWord) (o : Option U32) :
    (s.recordFault r w o).fb = s.fb := rfl
@[simp] theorem State.recordFault_faults (s : State) (r : FaultReason) (w : CommandWord) (o : Option U32) :
    (s.recordFault r w o).faults = s.faults ++ [⟨r, w, o⟩] := rfl
@[simp] theorem State.recordFault_refusals (s : State) (r : FaultReason) (w : CommandWord) (o : Option U32) :
    (s.recordFault r w o).refusals = s.refusals := rfl
@[simp] theorem State.recordFault_response (s : State) (r : FaultReason) (w : CommandWord) (o : Option U32) :
    (s.recordFault r w o).response = s.response := rfl
@[simp] theorem State.recordFault_pending (s : State) (r : FaultReason) (w : CommandWord) (o : Option U32) :
    (s.recordFault r w o).pending = s.pending := rfl
@[simp] theorem State.recordFault_names (s : State) (r : FaultReason) (w : CommandWord) (o : Option U32) :
    (s.recordFault r w o).names = s.names := rfl
@[simp] theorem State.recordFault_drawn (s : State) (r : FaultReason) (w : CommandWord) (o : Option U32) :
    (s.recordFault r w o).drawn = s.drawn := rfl

/-! ## Recording a refusal -/

@[simp] theorem State.recordRefusal_params (s : State) (r : RefusalReason) : (s.recordRefusal r).params = s.params := rfl
@[simp] theorem State.recordRefusal_sel (s : State) (r : RefusalReason) : (s.recordRefusal r).sel = s.sel := rfl
@[simp] theorem State.recordRefusal_cur (s : State) (r : RefusalReason) : (s.recordRefusal r).cur = s.cur := rfl
@[simp] theorem State.recordRefusal_fb (s : State) (r : RefusalReason) : (s.recordRefusal r).fb = s.fb := rfl
@[simp] theorem State.recordRefusal_faults (s : State) (r : RefusalReason) : (s.recordRefusal r).faults = s.faults := rfl
@[simp] theorem State.recordRefusal_refusals (s : State) (r : RefusalReason) :
    (s.recordRefusal r).refusals = s.refusals ++ [r] := rfl
@[simp] theorem State.recordRefusal_response (s : State) (r : RefusalReason) :
    (s.recordRefusal r).response = s.response := rfl
@[simp] theorem State.recordRefusal_pending (s : State) (r : RefusalReason) :
    (s.recordRefusal r).pending = s.pending := rfl
@[simp] theorem State.recordRefusal_names (s : State) (r : RefusalReason) : (s.recordRefusal r).names = s.names := rfl
@[simp] theorem State.recordRefusal_drawn (s : State) (r : RefusalReason) : (s.recordRefusal r).drawn = s.drawn := rfl

/-! ## Ending a command -/

@[simp] theorem conclude_ok (w : CommandWord) (s t : State) (v : Option U32) :
    conclude w s (.ok (t, v)) = .next { t with response := v } := rfl
@[simp] theorem conclude_error (w : CommandWord) (s : State) (e : Stop) : conclude w s (.error e) = stopWith w s e := rfl
@[simp] theorem noResponse_ok (t : State) : noResponse (.ok t) = .ok (t, none) := rfl
@[simp] theorem noResponse_error (e : Stop) : noResponse (.error e) = .error e := rfl
@[simp] theorem respondByte_ok (s : State) (b : Byte) : respondByte s (.ok b) = .ok (s, some (byteResponse b)) := rfl
@[simp] theorem respondByte_error (s : State) (e : Stop) : respondByte s (.error e) = .error e := rfl
@[simp] theorem stopWith_fault (w : CommandWord) (s : State) (r : FaultReason) (o : Option U32) :
    stopWith w s (.fault r o) = raiseFault r w o s := rfl
@[simp] theorem stopWith_refuse (w : CommandWord) (s : State) (r : RefusalReason) :
    stopWith w s (.refuse r) = refuse r s := rfl

/-- A stop never answers a next state. -/
theorem stopWith_ne_next (w : CommandWord) (s t : State) (e : Stop) : stopWith w s e ≠ .next t := by
  cases e with
  | fault r o => cases r <;> simp [stopWith, raiseFault]
  | refuse r => cases r <;> simp [stopWith, refuse]

/-- A command answers a next state exactly where its rule gives one, with its response delivered. -/
theorem conclude_eq_next {w : CommandWord} {s t : State} {x : Except Stop (State × Option U32)} :
    conclude w s x = .next t ↔ ∃ u v, x = .ok (u, v) ∧ t = { u with response := v } := by
  cases x with
  | error e => simp [stopWith_ne_next]
  | ok p => obtain ⟨u, v⟩ := p; simp [eq_comm]

end Sys2Proof.Machine
end

