-- ==== Sys2Proof/Laws/Ops.lean ====
section
/-! SUPPORT. Once per shared operation, everything it can do: the port reactions, the framebuffer access, the cursor series in
closed form, and the cell writes. -/

namespace Sys2Proof.Machine

/-! ## Ports -/

/-- Everything an accepted byte write to the data port does (R81). -/
theorem dataWrite_cases {v : Byte} {s t : State} (h : dataWrite v s = .ok t) :
    (s.sel = some s.params.curHiIdx ∧ t = { s with cur := s.params.keepCur (v ++ lowByte s.cur) }) ∨
    (s.sel = some s.params.curLoIdx ∧ s.params.curLoIdx ≠ s.params.curHiIdx ∧
      t = { s with cur := s.params.keepCur (highByte s.cur ++ v) }) := by
  unfold dataWrite at h
  cases hs : s.sel with
  | none => simp [hs] at h
  | some i =>
    simp only [hs] at h
    split at h
    · next hi => exact .inl ⟨by rw [hi], (Except.ok.inj h).symm⟩
    · next hi =>
      split at h
      · next hl => exact .inr ⟨by rw [hl], hl ▸ hi, (Except.ok.inj h).symm⟩
      · simp at h

/-- Everything an accepted byte write to a port does (R80). -/
theorem portWrite8_cases {p : U16} {v : Byte} {s t : State} (h : portWrite8 p v s = .ok t) :
    (p = s.params.selPort ∧ t = { s with sel := some v }) ∨
    (p ≠ s.params.selPort ∧ p = s.params.dataPort ∧ dataWrite v s = .ok t) := by
  unfold portWrite8 at h
  split at h
  · next hp => exact .inl ⟨hp, (Except.ok.inj h).symm⟩
  · next hp =>
    split at h
    · next hd => exact .inr ⟨hp, hd, h⟩
    · simp at h

/-- An accepted byte write to a port changes SEL and CUR at most. -/
theorem portWrite8_frame {p : U16} {v : Byte} {s t : State} (h : portWrite8 p v s = .ok t) :
    t = { s with sel := t.sel, cur := t.cur } := by
  rcases portWrite8_cases h with ⟨-, rfl⟩ | ⟨-, -, h⟩
  · rfl
  · rcases dataWrite_cases h with ⟨-, rfl⟩ | ⟨-, -, rfl⟩ <;> rfl

@[simp] theorem portWrite8_selPort (v : Byte) (s : State) :
    portWrite8 s.params.selPort v s = .ok { s with sel := some v } := by
  simp [portWrite8]

/-- Everything an answered byte read of a port does (R82, R83). -/
theorem portRead8_cases {p : U16} {s : State} {b : Byte} (h : portRead8 p s = .ok b) :
    p = s.params.dataPort ∧
    ((s.sel = some s.params.curHiIdx ∧ b = highByte s.cur) ∨
     (s.sel = some s.params.curLoIdx ∧ s.params.curLoIdx ≠ s.params.curHiIdx ∧ b = lowByte s.cur)) := by
  unfold portRead8 at h
  split at h
  · next hp =>
    refine ⟨hp, ?_⟩
    unfold dataRead at h
    cases hs : s.sel with
    | none => simp [hs] at h
    | some i =>
      simp only [hs] at h
      split at h
      · next hi => exact .inl ⟨by rw [hi], (Except.ok.inj h).symm⟩
      · next hi =>
        split at h
        · next hl => exact .inr ⟨by rw [hl], hl ▸ hi, (Except.ok.inj h).symm⟩
        · simp at h
  · split at h <;> simp at h

/-- Selecting a register and reading it changes SEL at most. -/
theorem selectRead_frame {idx : Byte} {s t : State} {b : Byte} (h : selectRead idx s = .ok (t, b)) :
    t = { s with sel := some idx } := by
  unfold selectRead at h
  rw [portWrite8_selPort] at h
  simp only at h
  split at h
  · simp at h
  · exact (Prod.mk.inj (Except.ok.inj h)).1.symm

/-- Selecting a register and writing it changes SEL and CUR at most. -/
theorem selectWrite_frame {idx v : Byte} {s t : State} (h : selectWrite idx v s = .ok t) :
    t = { s with sel := t.sel, cur := t.cur } := by
  unfold selectWrite at h
  rw [portWrite8_selPort] at h
  exact portWrite8_frame (s := { s with sel := some idx }) h

/-- GETCUR's series in closed form: `SEL <- CUR_HI_IDX`, nothing else changes, and the response is made of CUR's two bytes
(R121). -/
theorem getCursor_eq {s : State} (h : s.params.WellFormed) :
    getCursor s = .ok ({ s with sel := some s.params.curHiIdx }, some (cursorOffset (highByte s.cur) (lowByte s.cur))) := by
  simp [getCursor, selectRead, portRead8, dataRead, respond, portWrite8, h.2.1.symm]

/-- SETCUR's series in closed form (R122). -/
theorem setCursor_eq {s : State} (h : s.params.WellFormed) (off : U32) :
    setCursor off s = .ok { s with sel := some s.params.curLoIdx, cur := cursorValue s.params off } := by
  have hv : (cursorValue s.params off).toNat < 2 ^ s.params.curWidth := by
    rw [cursorValue_toNat h]; exact Nat.mod_lt _ (Nat.two_pow_pos _)
  simp [setCursor, selectWrite, portWrite8, dataWrite, h.1.symm, h.2.1.symm, keepCur_highByte_append h hv,
    Params.keepCur_of_lt hv]

/-! ## The framebuffer -/

/-- Everything an accepted framebuffer byte write does (R87). -/
theorem memWrite_cases {a : U32} {v : Byte} {s t : State} (h : memWrite a v s = .ok t) :
    s.inFramebuffer a 1 ∧ t = s.writeFb (a.toNat - s.params.fbBase.toNat) v := by
  unfold memWrite fbIndex at h
  split at h
  · next i hi =>
    split at hi
    · next hin => exact ⟨hin, by rw [← Except.ok.inj h, ← Except.ok.inj hi]⟩
    · simp at hi
  · simp at h

/-- Everything an answered framebuffer byte read does (R88). -/
theorem memRead_cases {a : U32} {s : State} {b : Byte} (h : memRead a s = .ok b) :
    s.inFramebuffer a 1 ∧ b = s.readFb (a.toNat - s.params.fbBase.toNat) := by
  unfold memRead fbIndex at h
  split at h
  · next i hi =>
    split at hi
    · next hin => exact ⟨hin, by rw [← Except.ok.inj h, ← Except.ok.inj hi]⟩
    · simp at hi
  · simp at h

/-- What an offset reads as after a cell write (R140). -/
theorem Memory.read_putCell {m : Memory} (hm : m.wf) (o : U32) (ch attr : Byte) (k : Nat) :
    (m.putCell o ch attr).read k =
      if k = o.toNat then ch else if k = o.toNat + 1 then attr else m.read k := by
  rw [Memory.putCell, Memory.read_write (Memory.write_rising hm.1 _ _), Memory.read_write hm.1]
  split
  · next h => subst h; simp
  · rfl

/-- A cell write leaves the other offsets alone, whatever the memory (R140). -/
theorem Memory.read_putCell_ne (m : Memory) {o : U32} (ch attr : Byte) {k : Nat} (h₁ : k ≠ o.toNat)
    (h₂ : k ≠ o.toNat + 1) : (m.putCell o ch attr).read k = m.read k := by
  rw [Memory.putCell, Memory.read_write_ne _ h₂, Memory.read_write_ne _ h₁]

/-- A cell write inside the grid keeps the canonical form. -/
theorem Memory.putCell_wf {m : Memory} (hm : m.wf) {o : U32} (ho : o.toNat < 3999) (ch attr : Byte) :
    (m.putCell o ch attr).wf := by
  have hsz : fbSize = 4000 := rfl
  exact Memory.write_wf (Memory.write_wf hm (by omega) ch) (by omega) attr

/-- Everything an accepted cell write does (R140). -/
theorem writeCell_cases {o : U32} {ch attr : Byte} {s t : State} (h : writeCell o ch attr s = .ok t) :
    o.toNat % 2 = 0 ∧ o.toNat ≤ 3998 ∧ t = s.putCell o ch attr := by
  unfold writeCell at h
  split at h
  · simp at h
  · next ho => exact ⟨by omega, by omega, (Except.ok.inj h).symm⟩

/-- A cell write at an even offset of the grid is accepted (R140). -/
theorem writeCell_eq {o : U32} (he : o.toNat % 2 = 0) (hl : o.toNat ≤ 3998) (ch attr : Byte) (s : State) :
    writeCell o ch attr s = .ok (s.putCell o ch attr) := by
  unfold writeCell
  rw [if_neg (by omega)]

/-- WRCHAR always completes: "CellOffsetInvalid cannot occur" (R141). -/
theorem writeCharacter_eq (col row : U32) (ch attr : Byte) (s : State) :
    writeCharacter col row ch attr s =
      if ch = s.params.chNewline then .ok (s, some (newlineOffset (offsetOf col row)))
      else .ok (s.putCell (offsetOf col row) ch attr, some (offsetOf col row + 2)) := by
  have h := offsetOf_range col row
  unfold writeCharacter
  simp only [writeCell_eq h.1 h.2, respond]

/-! ## Every cell of the grid -/

/-- Writing the first `n` cells keeps the canonical form. -/
theorem Memory.fillCells_wf (ch attr : Byte) {n : Nat} (hn : n ≤ 2000) {m : Memory} (hm : m.wf) :
    (m.fillCells ch attr n).wf := by
  induction n with
  | zero => exact hm
  | succ k ih => exact Memory.putCell_wf (ih (by omega)) (by rw [cellOffset_of_number hn]; omega) ch attr

/-- What an offset reads as after the first `n` cells are written (R142). -/
theorem Memory.read_fillCells (ch attr : Byte) {n : Nat} (hn : n ≤ 2000) {m : Memory} (hm : m.wf) (k : Nat) :
    (m.fillCells ch attr n).read k = if 2 * n ≤ k then m.read k else if k % 2 = 0 then ch else attr := by
  induction n with
  | zero => simp [Memory.fillCells]
  | succ j ih =>
    rw [Memory.fillCells, Memory.read_putCell (fillCells_wf ch attr (by omega) hm), cellOffset_of_number hn, ih (by omega)]
    by_cases h0 : k = 2 * j
    · rw [if_pos h0, if_neg (by omega), if_pos (by omega)]
    by_cases h1 : k = 2 * j + 1
    · rw [if_neg h0, if_pos h1, if_neg (by omega), if_neg (by omega)]
    rw [if_neg h0, if_neg h1]
    by_cases h2 : 2 * j ≤ k
    · rw [if_pos h2, if_pos (by omega)]
    · rw [if_neg h2, if_neg (show ¬ 2 * (j + 1) ≤ k by omega)]

/-- Writing the first `n` cells leaves the offsets after them alone, whatever the memory. -/
theorem Memory.read_fillCells_ge (m : Memory) (ch attr : Byte) {n : Nat} (hn : n ≤ 2000) {k : Nat} (hk : 2 * n ≤ k) :
    (m.fillCells ch attr n).read k = m.read k := by
  induction n with
  | zero => rfl
  | succ j ih =>
    rw [Memory.fillCells, Memory.read_putCell_ne _ _ _ (by rw [cellOffset_of_number hn]; omega)
      (by rw [cellOffset_of_number hn]; omega), ih (by omega) (by omega)]

/-- What a byte reads as after every cell of the grid is written (R142). -/
theorem State.readFb_fillGrid {s : State} (hs : s.fb.wf) (ch attr : Byte) (k : Nat) :
    (s.fillGrid ch attr).readFb k = if 4000 ≤ k then s.readFb k else if k % 2 = 0 then ch else attr :=
  Memory.read_fillCells ch attr (n := 2000) (by omega) hs k

/-- Writing every cell of the grid keeps the canonical form. -/
theorem State.fillGrid_wf {s : State} (hs : s.fb.wf) (ch attr : Byte) : (s.fillGrid ch attr).fb.wf :=
  Memory.fillCells_wf ch attr (n := 2000) (by omega) hs

end Sys2Proof.Machine
end

