-- ==== Sys2Proof/Laws/PerInstr.lean ====
section
/-! SUPPORT. Per command of the opcode table: its encoded word carries its OP and has every reserved field zero (30_encoding.md
R62, R63). -/

namespace Sys2Proof.Laws.WordOf

/-- The encoded word selects the command's own row of R62 and leaves that row's reserved fields zero (R63). -/
def Statement (i : Instr) : Prop :=
  opcodeOf (fieldOp (encode i)) = some (instrOpcode i) ∧ reservedClear (instrOpcode i) (encode i) = true

theorem iowrb (port : U16) (val8 : Byte) : Statement (.iowrb port val8) := by
  simp [Statement, encode, reservedClear, instrOpcode]

theorem iordb (port : U16) : Statement (.iordb port) := by
  simp [Statement, encode, reservedClear, instrOpcode]

theorem iowrw (port val16 : U16) : Statement (.iowrw port val16) := by
  simp [Statement, encode, reservedClear, instrOpcode]

theorem iordw (port : U16) : Statement (.iordw port) := by
  simp [Statement, encode, reservedClear, instrOpcode]

theorem memwrb (addr : U32) (val8 : Byte) : Statement (.memwrb addr val8) := by
  simp [Statement, encode, reservedClear, instrOpcode]

theorem memrdb (addr : U32) : Statement (.memrdb addr) := by
  simp [Statement, encode, reservedClear, instrOpcode]

theorem offset (col row : U32) : Statement (.offset col row) := by
  simp [Statement, encode, reservedClear, instrOpcode]

theorem rowof (off : U32) : Statement (.rowof off) := by
  simp [Statement, encode, reservedClear, instrOpcode]

theorem colof (off : U32) : Statement (.colof off) := by
  simp [Statement, encode, reservedClear, instrOpcode]

theorem getcur : Statement .getcur := by
  simp [Statement, encode, reservedClear, instrOpcode]

theorem setcur (off : U32) : Statement (.setcur off) := by
  simp [Statement, encode, reservedClear, instrOpcode]

theorem wrcell (off : U32) (ch attr : Byte) : Statement (.wrcell off ch attr) := by
  simp [Statement, encode, reservedClear, instrOpcode]

theorem wrchar (col row : U32) (ch attr : Byte) : Statement (.wrchar col row ch attr) := by
  simp [Statement, encode, reservedClear, instrOpcode]

theorem fill (ch attr : Byte) : Statement (.fill ch attr) := by
  simp [Statement, encode, reservedClear, instrOpcode]

end Sys2Proof.Laws.WordOf
end

