-- ==== Sys2Proof/Laws/Step.lean ====
section
/-! SUPPORT. What one step can do, by what the host issues next; response names; and a literal operand list. -/

namespace Sys2Proof.Machine

theorem State.stopped_iff (s : State) : s.stopped = true ↔ s.faults ≠ [] ∨ s.refusals ≠ [] := by
  simp [State.stopped]

theorem step_of_stopped {s : State} (h : s.stopped = true) : step s = .fault (.quiescent s) := by
  simp [step, h]

theorem step_of_idle {s : State} (h : s.stopped = false) (hp : s.pending = []) : step s = .next s := by
  simp [step, h, hp]

/-- A step from a state that is not stopped takes the host's next item. -/
theorem step_of_item {s : State} {item : HostItem} {rest : List HostItem} (h : s.stopped = false)
    (hp : s.pending = item :: rest) : step s = takeItem item { s with pending := rest } := by
  simp [step, h, hp]

/-- Everything a step can do. -/
theorem step_cases (s : State) :
    (s.stopped = true ∧ step s = .fault (.quiescent s)) ∨
    (s.stopped = false ∧ s.pending = [] ∧ step s = .next s) ∨
    (∃ item rest, s.stopped = false ∧ s.pending = item :: rest ∧ step s = takeItem item { s with pending := rest }) := by
  cases h : s.stopped with
  | true => exact .inl ⟨rfl, step_of_stopped h⟩
  | false =>
    cases hp : s.pending with
    | nil => exact .inr (.inl ⟨rfl, rfl, step_of_idle h hp⟩)
    | cons item rest => exact .inr (.inr ⟨item, rest, rfl, rfl, step_of_item h hp⟩)

/-- Everything naming a response can do to a next state. -/
theorem nameResponse_next {into : Option RespName} {x : Result} {t : State} (h : nameResponse into x = .next t) :
    ∃ u, x = .next u ∧ t = { u with names := t.names } := by
  cases x with
  | fault f => simp [nameResponse] at h
  | refused r => simp [nameResponse] at h
  | next u =>
    refine ⟨u, rfl, ?_⟩
    simp only [nameResponse] at h
    split at h <;> (injection h with h; subst h; rfl)

theorem lookupName_bindName_same (names : List (RespName × U32)) (n : RespName) (v : U32) :
    lookupName (bindName names n v) n = some v := by
  simp [bindName, lookupName]

theorem lookupName_filter_ne (names : List (RespName × U32)) {n m : RespName} (h : m ≠ n) :
    lookupName (names.filter fun e => e.1 != n) m = lookupName names m := by
  induction names with
  | nil => rfl
  | cons e names ih =>
    obtain ⟨k, x⟩ := e
    rw [List.filter_cons]
    by_cases hk : k = n
    · subst hk
      simp [lookupName, h, ih]
    · simp [hk, lookupName, ih]

/-- Naming a response leaves the other names alone. -/
theorem lookupName_bindName_ne (names : List (RespName × U32)) {n m : RespName} (v : U32) (h : m ≠ n) :
    lookupName (bindName names n v) m = lookupName names m := by
  simp [bindName, lookupName, h, lookupName_filter_ne names h]

@[simp] theorem assemble_nil (names : List (RespName × U32)) (w : CommandWord) (k : Nat) :
    assemble names w k [] = some (w, k) := rfl

theorem assemble_cons_bound {names : List (RespName × U32)} {n : RespName} {v : U32} (h : lookupName names n = some v)
    (w : CommandWord) (k : Nat) (f : OperandField) (ops : List (OperandField × RespName)) :
    assemble names w k ((f, n) :: ops) =
      assemble names (setField w f v (Config.freeByte k)) (k + drawsFor f v) ops := by
  simp [assemble, h]

theorem assemble_cons_unbound {names : List (RespName × U32)} {n : RespName} (h : lookupName names n = none)
    (w : CommandWord) (k : Nat) (f : OperandField) (ops : List (OperandField × RespName)) :
    assemble names w k ((f, n) :: ops) = none := by
  simp [assemble, h]

/-- A response up to 0xFF is the byte itself (R66). -/
theorem responseByte_of_lt {v : U32} (h : v.toNat < 256) (free : Byte) : responseByte v free = BitVec.ofNat 8 v.toNat := by
  rw [responseByte, if_pos h]
  exact BitVec.eq_of_toNat_eq (by simp)

/-- A response above 0xFF leaves the byte free (log 23). -/
theorem responseByte_of_ge {v : U32} (h : 256 ≤ v.toNat) (free : Byte) : responseByte v free = free := by
  simp [responseByte, Nat.not_lt.2 h]

/-- The step that takes a command of the host runs the command its assembled word decodes to, whatever it draws. -/
theorem step_assembled {s : State} {rest : List HostItem} {w w' : CommandWord} {ops : List (OperandField × RespName)}
    {into : Option RespName} {i : Instr} {k : Nat} (hs : s.stopped = false)
    (hp : s.pending = .issue { agent := .host, request := .command w ops, into := into } :: rest)
    (ha : assemble s.names w s.drawn ops = some (w', k)) (hd : decode w' = .ok i) :
    step s = nameResponse into (exec i { s with pending := rest, drawn := k }) := by
  rw [step_of_item hs hp]
  simp [takeItem, issueRequest, ha, issueWord, hd]

/-- A request that uses an unknown name is refused and the state is as it was (log 11). -/
theorem step_of_unbound {s : State} {rest : List HostItem} {i : Issue} {w : CommandWord}
    {ops : List (OperandField × RespName)} (h : s.stopped = false) (hp : s.pending = .issue i :: rest)
    (hi : i.request = .command w ops) (ha : assemble s.names w s.drawn ops = none) :
    step s = .refused (.unboundResponse s) := by
  rw [step_of_item h hp]
  simp [takeItem, issueRequest, hi, ha, ← hp]

/-- A message that cannot be passed is refused and the state is as it was (log 12). -/
theorem step_of_unpassable {s : State} {rest : List HostItem} {q : HostSequence} (h : s.stopped = false)
    (hp : s.pending = .call q :: rest) (hq : expandSequence s.params q = none) :
    step s = .refused (.unterminatedMessage s) := by
  rw [step_of_item h hp]
  simp [takeItem, callSequence, hq, ← hp]

theorem issueWord_host {w : CommandWord} {i : Instr} (h : decode w = .ok i) (s : State) :
    issueWord .host w s = exec i s := by
  simp [issueWord, h]

theorem nameResponse_raiseFault (into : Option RespName) (r : FaultReason) (w : CommandWord) (o : Option U32) (s : State) :
    nameResponse into (raiseFault r w o s) = raiseFault r w o s := by
  cases r <;> rfl

theorem nameResponse_refuse (into : Option RespName) (r : RefusalReason) (s : State) :
    nameResponse into (refuse r s) = refuse r s := by
  cases r <;> rfl

/-- Everything taking an item can do: a word that is no command faults, another agent or a wide access is refused, the item
cannot be issued and stays the next one, a sequence is written out, or a command runs with its free bytes drawn. -/
theorem takeItem_cases (item : HostItem) (s : State) :
    (∃ r w k, takeItem item s = raiseFault r w none { s with drawn := k }) ∨
    (∃ r k, takeItem item s = refuse r { s with drawn := k }) ∨
    (∃ r, takeItem item s = .refused r ∧ r.left = some { s with pending := item :: s.pending }) ∨
    (∃ items, takeItem item s = .next { s with pending := items }) ∨
    (∃ i k into, takeItem item s = nameResponse into (exec i { s with drawn := k })) := by
  cases item with
  | call q =>
    simp only [takeItem, callSequence]
    split
    · exact .inr (.inr (.inr (.inl ⟨_, rfl⟩)))
    · exact .inr (.inr (.inl ⟨_, rfl, rfl⟩))
  | issue i =>
    simp only [takeItem, issueRequest]
    split
    · split
      · unfold issueWord
        split
        · exact .inl ⟨_, _, _, nameResponse_raiseFault ..⟩
        · exact .inl ⟨_, _, _, nameResponse_raiseFault ..⟩
        · split
          · exact .inr (.inr (.inr (.inr ⟨_, _, _, rfl⟩)))
          · exact .inr (.inl ⟨_, _, nameResponse_refuse ..⟩)
      · exact .inr (.inr (.inl ⟨_, rfl, rfl⟩))
    · unfold issueWideMem
      split
      · exact .inr (.inl ⟨_, s.drawn, rfl⟩)
      · exact .inr (.inl ⟨_, s.drawn, rfl⟩)

theorem runSteps_succ_of_next {k : Nat} {s t : State} (h : step s = .next t) : runSteps (k + 1) s = runSteps k t := by
  simp [runSteps, h]

theorem runSteps_add {j k : Nat} {s t : State} (h : runSteps j s = .next t) : runSteps (j + k) s = runSteps k t := by
  induction j generalizing s with
  | zero => simp only [runSteps] at h; injection h with h; subst h; simp
  | succ j ih =>
    rw [show j + 1 + k = j + k + 1 by omega]
    simp only [runSteps] at h ⊢
    cases hs : step s with
    | next u => simp only [hs] at h ⊢; exact ih h
    | fault f => simp [hs] at h
    | refused r => simp [hs] at h

end Sys2Proof.Machine
end

