-- ==== Sys2Proof/Laws/Sequences.lean ====
section
/-! SUPPORT. What the step that takes one command of a host sequence does (45_host_sequences.md R161 to R164): the response
names are put into the word, the word decodes to the command, and the command runs. -/

namespace Sys2Proof.Machine

/-- The number an operand holds while the names given are `names` (R66). -/
def Operand.valueIn (names : List (RespName × U32)) : Operand → Option U32
  | .lit v => some v
  | .resp n => lookupName names n

theorem decode_packWord_wrchar (a b : U32) (c d : Byte) : decode (packWord 0x31 a b c d) = .ok (.wrchar a b c d) := by
  simp [decode, opcodeOf, reservedClear, readOperands]

theorem decode_packWord_setcur (a : U32) : decode (packWord 0x21 a 0 0 0) = .ok (.setcur a) := by
  simp [decode, opcodeOf, reservedClear, readOperands]

theorem decode_packWord_getcur : decode (packWord 0x20 0 0 0 0) = .ok .getcur := by
  simp [decode, opcodeOf, reservedClear, readOperands]

theorem decode_packWord_colof (a : U32) : decode (packWord 0x12 a 0 0 0) = .ok (.colof a) := by
  simp [decode, opcodeOf, reservedClear, readOperands]

theorem decode_packWord_rowof (a : U32) : decode (packWord 0x11 a 0 0 0) = .ok (.rowof a) := by
  simp [decode, opcodeOf, reservedClear, readOperands]

theorem decode_packWord_fill (c d : Byte) : decode (packWord 0x32 0 0 c d) = .ok (.fill c d) := by
  simp [decode, opcodeOf, reservedClear, readOperands]

/-- The step that takes a command of the host that draws no free byte runs the command its assembled word decodes to. -/
theorem step_hostWord {s : State} {rest : List HostItem} {w w' : CommandWord} {ops : List (OperandField × RespName)}
    {into : Option RespName} {i : Instr} (hs : s.stopped = false)
    (hp : s.pending = .issue { agent := .host, request := .command w ops, into := into } :: rest)
    (ha : assemble s.names w s.drawn ops = some (w', s.drawn)) (hd : decode w' = .ok i) :
    step s = nameResponse into (exec i { s with pending := rest }) :=
  step_assembled hs hp ha hd

/-- The step of `WRCHAR c, r, ch, attr -> n` (R161, R162). -/
theorem step_issueWrchar {s : State} {rest : List HostItem} {c r : Operand} {cv rv : U32} {ch attr : Byte}
    (hs : s.stopped = false) (hp : s.pending = issueWrchar c r ch attr :: rest)
    (hc : c.valueIn s.names = some cv) (hr : r.valueIn s.names = some rv) :
    step s = nameResponse (some .seqN) (exec (.wrchar cv rv ch attr) { s with pending := rest }) := by
  refine step_hostWord (w' := packWord 0x31 cv rv ch attr) hs hp ?_ (decode_packWord_wrchar ..)
  cases c <;> cases r <;>
    simp_all [Operand.valueIn, Operand.into, Operand.literal, assemble, setField, drawsFor, encode, instrOpcode, opcodeNumber]

/-- The step of `SETCUR n` (R161, R162). -/
theorem step_issueSetcur {s : State} {rest : List HostItem} {n : U32} (hs : s.stopped = false)
    (hp : s.pending = issueSetcur :: rest) (hn : lookupName s.names .seqN = some n) :
    step s = nameResponse none (exec (.setcur n) { s with pending := rest }) :=
  step_hostWord (w' := packWord 0x21 n 0 0 0) hs hp
    (by simp [assemble, setField, drawsFor, encode, instrOpcode, opcodeNumber, hn]) (decode_packWord_setcur n)

/-- The step of `GETCUR -> o` (R161). -/
theorem step_issueGetcur {s : State} {rest : List HostItem} (hs : s.stopped = false) (hp : s.pending = issueGetcur :: rest) :
    step s = nameResponse (some .seqO) (exec .getcur { s with pending := rest }) :=
  step_hostWord hs hp rfl (by simpa [encode, instrOpcode, opcodeNumber] using decode_packWord_getcur)

/-- The step of `COLOF x -> c` (R161, R162). -/
theorem step_issueColof {s : State} {rest : List HostItem} {x : RespName} {n : U32} (hs : s.stopped = false)
    (hp : s.pending = issueColof x :: rest) (hn : lookupName s.names x = some n) :
    step s = nameResponse (some .seqC) (exec (.colof n) { s with pending := rest }) :=
  step_hostWord (w' := packWord 0x12 n 0 0 0) hs hp
    (by simp [assemble, setField, drawsFor, encode, instrOpcode, opcodeNumber, hn]) (decode_packWord_colof n)

/-- The step of `ROWOF x -> r` (R161, R162). -/
theorem step_issueRowof {s : State} {rest : List HostItem} {x : RespName} {n : U32} (hs : s.stopped = false)
    (hp : s.pending = issueRowof x :: rest) (hn : lookupName s.names x = some n) :
    step s = nameResponse (some .seqR) (exec (.rowof n) { s with pending := rest }) :=
  step_hostWord (w' := packWord 0x11 n 0 0 0) hs hp
    (by simp [assemble, setField, drawsFor, encode, instrOpcode, opcodeNumber, hn]) (decode_packWord_rowof n)

/-- The step that writes out a host sequence. -/
theorem step_call {s : State} {rest : List HostItem} {q : HostSequence} {items : List HostItem} (hs : s.stopped = false)
    (hp : s.pending = .call q :: rest) (hq : expandSequence s.params q = some items) :
    step s = .next { s with pending := items ++ rest } := by
  rw [step_of_item hs hp]
  simp [takeItem, callSequence, hq]

end Sys2Proof.Machine
end

