-- ==== Sys2Proof/Tests/Slice0.lean ====
section
/-! SUPPORT. Tests of the model: ill-formed terms that the checks refuse, words and results transcribed from
95_test_vectors.md (its row is named in each comment), and for each statement of Obligations.lean that has hypotheses a state
and operands that meet them. -/

namespace Sys2Proof.Tests

open Sys2Proof Sys2Proof.Machine

/-! ## Views of an outcome -/

/-- SEL after a completed command. -/
def selAfter : Result → Option (Option Byte)
  | .next t => some t.sel
  | _ => none

/-- CUR after a completed command. -/
def curAfter : Result → Option U16
  | .next t => some t.cur
  | _ => none

/-- The response of a completed command. -/
def responseOf : Result → Option (Option U32)
  | .next t => some t.response
  | _ => none

/-- The entries of the fault record after a fault. -/
def faultsOf : Result → List FaultEntry
  | .fault f => f.left.faults
  | _ => []

/-- The reasons of the refusal mark after a refusal. -/
def refusalsOf : Result → List RefusalReason
  | .refused r =>
    match r.left with
    | some t => t.refusals
    | none => []
  | _ => []

/-- The command completed. -/
def completes : Result → Bool
  | .next _ => true
  | _ => false

/-- A machine after reset with the selector and the cursor given. -/
def mach (sel : Option Byte) (cur : U16) : State := { State.reset with sel := sel, cur := cur }

/-- A machine about to take one item. -/
def taking (item : HostItem) : State := { State.reset with pending := [item] }

theorem taking_inv (item : HostItem) : (taking item).Inv :=
  ⟨show defaultParams.WellFormed by decide, Memory.nil_wf, by
    rw [show (taking item).cur = State.reset.params.keepCur Config.resetCur from rfl, Params.keepCur_toNat]
    exact Nat.mod_lt _ (Nat.two_pow_pos _)⟩

/-- A request of the host for a word. -/
def word (w : CommandWord) : HostItem := .issue { agent := .host, request := .command w [], into := none }

/-- The default parameters at the least widths that are well formed with them. -/
def narrow : Params :=
  { defaultParams with portWidth := 10, addrWidth := 20, curWidth := 11, coordWidth := 8, offsetWidth := 12 }

/-- A machine at those widths, with the selector and the cursor given. -/
def narrowMach (sel : Option Byte) (cur : U16) : State := { State.resetWith narrow with sel := sel, cur := cur }

/-! ## Well-formedness refuses ill-formed terms -/

theorem test_wf_default_parameters : defaultParams.WellFormed := by decide

theorem test_wf_rejects_equal_ports : ¬ Params.WellFormed { defaultParams with selPort := 0x3D5 } := by decide

theorem test_wf_rejects_equal_indices : ¬ Params.WellFormed { defaultParams with curHiIdx := 0x0F } := by decide

theorem test_wf_rejects_region_past_memory : ¬ Params.WellFormed { defaultParams with fbBase := 0xFFFFF061 } := by decide

theorem test_wf_rejects_region_past_narrow_memory : ¬ Params.WellFormed { defaultParams with addrWidth := 19 } := by decide

theorem test_wf_rejects_selPort_outside : ¬ Params.WellFormed { defaultParams with portWidth := 10, selPort := 0x400 } := by
  decide

theorem test_wf_rejects_dataPort_outside : ¬ Params.WellFormed { defaultParams with portWidth := 10, dataPort := 0x400 } := by
  decide

theorem test_wf_rejects_portWidth_above_its_field : ¬ Params.WellFormed { defaultParams with portWidth := 17 } := by decide

theorem test_wf_rejects_addrWidth_above_its_field : ¬ Params.WellFormed { defaultParams with addrWidth := 33 } := by decide

theorem test_wf_rejects_curWidth_above_its_field : ¬ Params.WellFormed { defaultParams with curWidth := 17 } := by decide

theorem test_wf_rejects_coordWidth_above_its_field : ¬ Params.WellFormed { defaultParams with coordWidth := 33 } := by decide

theorem test_wf_rejects_offsetWidth_above_its_field : ¬ Params.WellFormed { defaultParams with offsetWidth := 33 } := by decide

theorem test_wf_rejects_cursor_below_the_grid : ¬ Params.WellFormed { narrow with curWidth := 10 } := by decide

theorem test_wf_rejects_offset_below_the_cursor_offset : ¬ Params.WellFormed { defaultParams with offsetWidth := 16 } := by decide

theorem test_wf_rejects_coordinate_below_the_row : ¬ Params.WellFormed { defaultParams with coordWidth := 25 } := by decide

theorem test_wf_rejects_coordinate_below_the_column : ¬ Params.WellFormed { narrow with coordWidth := 7 } := by decide

theorem test_wf_accepts_the_least_widths : narrow.WellFormed := by decide

theorem test_wf_accepts_region_at_the_top : Params.WellFormed { defaultParams with fbBase := 0xFFFFF060 } := by decide

theorem test_wf_rejects_message_without_nul :
    HostSequence.wellFormed defaultParams (.print [0x48, 0x69] 0x07) = false ∧
    HostSequence.wellFormed defaultParams (.printAt [] .current .current 0x07) = false := by decide

theorem test_wf_accepts_terminated_message : HostSequence.wellFormed defaultParams (.print [0x48, 0x00] 0x07) = true := by decide

theorem test_wf_rejects_name_used_before_given :
    programWellFormed defaultParams [] [hostCommand (.setcur 0) [(.a, .named 0)] none] = false := by decide

theorem test_wf_accepts_name_given_before :
    programWellFormed defaultParams []
      [hostCommand (.offset 4 2) [] (some (.named 0)), hostCommand (.setcur 0) [(.a, .named 0)] none] = true := by decide

/-! ## Words from the spec (95 sections 2.1 to 2.5) -/

/-- B1. -/
theorem test_decode_iowrb : decode 0x01000003D500000000AB00 = .ok (.iowrb 0x3D5 0xAB) := by decide

/-- B6. -/
theorem test_decode_iordb : decode 0x02000003D4000000000000 = .ok (.iordb 0x3D4) := by decide

/-- B9. -/
theorem test_decode_iowrw : decode 0x03000003D40000070E0000 = .ok (.iowrw 0x3D4 0x070E) := by decide

/-- B11. -/
theorem test_decode_iordw : decode 0x04000003D5000000000000 = .ok (.iordw 0x3D5) := by decide

/-- B13. -/
theorem test_decode_memwrb : decode 0x05000B8001000000004E00 = .ok (.memwrb 0xB8001 0x4E) := by decide

/-- B16. -/
theorem test_decode_memrdb : decode 0x06000B8F9F000000000000 = .ok (.memrdb 0xB8F9F) := by decide

/-- A6. -/
theorem test_decode_offset : decode 0x10000000280000000C0000 = .ok (.offset 40 12) := by decide

/-- A22. -/
theorem test_decode_rowof : decode 0x11000000A0000000000000 = .ok (.rowof 160) := by decide

/-- A29. -/
theorem test_decode_colof : decode 0x120000009E000000000000 = .ok (.colof 0x9E) := by decide

/-- C1. -/
theorem test_decode_getcur : decode 0x2000000000000000000000 = .ok .getcur := by decide

/-- C4. -/
theorem test_decode_setcur : decode 0x2100000F9E000000000000 = .ok (.setcur 3998) := by decide

/-- W1. -/
theorem test_decode_wrcell : decode 0x300000009E000000005A1F = .ok (.wrcell 0x9E 0x5A 0x1F) := by decide

/-- W8. -/
theorem test_decode_wrchar : decode 0x31000000C8FFFFFFFF5107 = .ok (.wrchar 200 (-1) 0x51 0x07) := by decide

/-- W14. -/
theorem test_decode_fill : decode 0x3200000000000000000A07 = .ok (.fill 0x0A 0x07) := by decide

/-- E1, E2, E3 and E5: a reserved opcode is reported before a reserved field. -/
theorem test_decode_rejects_reserved_opcodes :
    decode 0x0000000000000000000000 = .error .reservedOpcode ∧ decode 0xFF00000000000000000000 = .error .reservedOpcode ∧
    decode 0x1300000000000000000000 = .error .reservedOpcode ∧ decode 0x1300000000000000000100 = .error .reservedOpcode := by
  decide

/-- E4, B8, B10, C10 and W16. -/
theorem test_decode_rejects_reserved_fields :
    decode 0x1000000000000000000100 = .error .reservedField ∧ decode 0x01000103D4000000000E00 = .error .reservedField ∧
    decode 0x03000003D4000100000000 = .error .reservedField ∧ decode 0x2000000001000000000000 = .error .reservedField ∧
    decode 0x320000000000000001200F = .error .reservedField := by decide

/-- The table's numbering of one 88-bit word. -/
theorem test_table_word : decodeTableWord 88 0x310000004F000000184307 = some (.wrchar 79 24 0x43 0x07) := by decide

/-- W14: the placed word is the next command. -/
theorem test_step_runs_placed_word :
    completes (step (State.reset.withFetchWord 88 0x3200000000000000000A07)) = true := by decide

/-! ## One command on a small state (95 sections 2.1 to 2.4) -/

/-- B1. -/
theorem test_iowrb_low_byte_of_cursor : curAfter (exec (.iowrb 0x3D5 0xAB) (mach (some 0x0F) 0x1234)) = some 0x12AB := by
  decide

/-- B4 and B7. -/
theorem test_iowrb_selector_and_other_port :
    selAfter (exec (.iowrb 0x3D4 0x0A) (mach none 0)) = some (some 0x0A) ∧
    refusalsOf (exec (.iowrb 0x80 0x00) (mach none 0)) = [.unclaimedPort] := by decide

/-- B2 and B3. -/
theorem test_iordb_high_byte_and_unset :
    responseOf (exec (.iordb 0x3D5) (mach (some 0x0E) 0x07D0)) = some (some 0x07) ∧
    faultsOf (exec (.iordb 0x3D5) (mach none 0x07D0)) =
      [{ reason := .selectorUnset, word := 0x02000003D5000000000000, off := none }] := by decide

/-- B5 and B6. -/
theorem test_iordb_refused :
    refusalsOf (exec (.iordb 0x3D5) (mach (some 0x0A) 0)) = [.otherControllerRegister] ∧
    refusalsOf (exec (.iordb 0x3D4) (mach (some 0x0A) 0)) = [.selectorRead] := by decide

/-- B9 and B12. -/
theorem test_iowrw_refused :
    refusalsOf (exec (.iowrw 0x3D4 0x070E) (mach none 0)) = [.wordPortAccess] ∧
    refusalsOf (exec (.iowrw 0x80 0x0001) (mach none 0)) = [.unclaimedPort] := by decide

/-- B11. -/
theorem test_iordw_refused : refusalsOf (exec (.iordw 0x3D5) (mach none 0)) = [.wordPortAccess] := by decide

/-- B13. -/
theorem test_memwrb_writes_the_byte :
    ∃ t, exec (.memwrb 0xB8001 0x4E) (mach none 0) = .next t ∧ t.readFb 1 = 0x4E :=
  ⟨_, rfl, Memory.read_write_same (m := []) List.Pairwise.nil 1 0x4E⟩

/-- B14 and B15. -/
theorem test_memwrb_outside :
    refusalsOf (exec (.memwrb 0xB7FFF 0x41) (mach none 0)) = [.outsideFramebuffer] ∧
    refusalsOf (exec (.memwrb 0xB8FA0 0x41) (mach none 0)) = [.outsideFramebuffer] := by decide

/-- B16, on a framebuffer that lists its last byte. -/
theorem test_memrdb_last_byte :
    responseOf (exec (.memrdb 0xB8F9F) { mach none 0 with fb := [(3999, 0x0F)] }) = some (some 0x0F) := by decide

/-- A6, A7, A13 and A18. -/
theorem test_offset_clamps_each_axis :
    responseOf (exec (.offset 40 12) (mach none 0)) = some (some 2000) ∧
    responseOf (exec (.offset 80 0) (mach none 0)) = some (some 158) ∧
    responseOf (exec (.offset 0 25) (mach none 0)) = some (some 3840) ∧
    responseOf (exec (.offset 2147483647 2147483647) (mach none 0)) = some (some 3998) := by decide

/-- A10, A15 and A19. -/
theorem test_offset_negative :
    responseOf (exec (.offset (-2147483648) 0) (mach none 0)) = some (some 0) ∧
    responseOf (exec (.offset 0 (-1)) (mach none 0)) = some (some 0) ∧
    responseOf (exec (.offset (-2147483648) (-2147483648)) (mach none 0)) = some (some 0) := by decide

/-- A21, A22, A24 and A26. -/
theorem test_rowof_does_not_clamp :
    responseOf (exec (.rowof 159) (mach none 0)) = some (some 0) ∧ responseOf (exec (.rowof 160) (mach none 0)) = some (some 1) ∧
    responseOf (exec (.rowof 4000) (mach none 0)) = some (some 25) ∧
    responseOf (exec (.rowof 0xFFFFFFFF) (mach none 0)) = some (some 26843545) := by decide

/-- A28, A30, A32 and A33. -/
theorem test_colof :
    responseOf (exec (.colof 3) (mach none 0)) = some (some 1) ∧ responseOf (exec (.colof 159) (mach none 0)) = some (some 79) ∧
    responseOf (exec (.colof 0x1FFFE) (mach none 0)) = some (some 15) ∧
    responseOf (exec (.colof 0xFFFFFFFF) (mach none 0)) = some (some 47) := by decide

/-- C1. -/
theorem test_getcur_from_unset_selector :
    responseOf (exec .getcur (mach none 0x07D0)) = some (some 4000) ∧
    selAfter (exec .getcur (mach none 0x07D0)) = some (some 0x0E) ∧
    curAfter (exec .getcur (mach none 0x07D0)) = some 0x07D0 := by decide

/-- C2. -/
theorem test_getcur_largest : responseOf (exec .getcur (mach (some 0x0A) 0xFFFF)) = some (some 131070) := by decide

/-- C3, C4 and C5. -/
theorem test_setcur_halves :
    curAfter (exec (.setcur 0) (mach none 0x1234)) = some 0x0000 ∧
    selAfter (exec (.setcur 0) (mach none 0x1234)) = some (some 0x0F) ∧
    curAfter (exec (.setcur 3998) (mach none 0x1234)) = some 0x07CF ∧
    curAfter (exec (.setcur 3) (mach none 0x1234)) = some 0x0001 := by decide

/-- C6, C7 and C8. -/
theorem test_setcur_wraps :
    curAfter (exec (.setcur 4000) (mach none 0)) = some 0x07D0 ∧ curAfter (exec (.setcur 0x20000) (mach none 1)) = some 0 ∧
    curAfter (exec (.setcur 0xFFFFFFFF) (mach none 0)) = some 0xFFFF := by decide

/-- W1. -/
theorem test_wrcell_writes_both_bytes :
    ∃ t, exec (.wrcell 0x9E 0x5A 0x1F) (mach none 0) = .next t ∧ t.readFb 158 = 0x5A ∧ t.readFb 159 = 0x1F :=
  ⟨_, rfl, Memory.read_putCell Memory.nil_wf 0x9E 0x5A 0x1F 158, Memory.read_putCell Memory.nil_wf 0x9E 0x5A 0x1F 159⟩

/-- W3 and W4. -/
theorem test_wrcell_faults :
    faultsOf (exec (.wrcell 4000 0x41 0x07) (mach none 0)) =
      [{ reason := .cellOffsetInvalid, word := 0x3000000FA0000000004107, off := some 4000 }] ∧
    faultsOf (exec (.wrcell 3 0x41 0x07) (mach none 0)) =
      [{ reason := .cellOffsetInvalid, word := 0x3000000003000000004107, off := some 3 }] := by decide

/-- W6, W7 and W8. -/
theorem test_wrchar_next_offset :
    responseOf (exec (.wrchar 79 0 0x42 0x07) (mach none 0)) = some (some 160) ∧
    responseOf (exec (.wrchar 79 24 0x43 0x07) (mach none 0)) = some (some 4000) ∧
    responseOf (exec (.wrchar 200 (-1) 0x51 0x07) (mach none 0)) = some (some 160) := by decide

/-- W9, W10, W11 and W12. -/
theorem test_wrchar_newline :
    responseOf (exec (.wrchar 5 3 0x0A 0x07) (mach none 0)) = some (some 640) ∧
    responseOf (exec (.wrchar 0 24 0x0A 0x07) (mach none 0)) = some (some 3840) ∧
    responseOf (exec (.wrchar 0 (-7) 0x0A 0x07) (mach none 0)) = some (some 160) ∧
    responseOf (exec (.wrchar 0 2147483647 0x0A 0x07) (mach none 0)) = some (some 3840) := by decide

/-- W14: FILL has no newline handling; the last cell. -/
theorem test_fill_last_cell :
    ∃ t, exec (.fill 0x0A 0x07) (mach none 0) = .next t ∧ t.readFb 3998 = 0x0A ∧ t.readFb 3999 = 0x07 :=
  ⟨_, rfl, State.readFb_fillGrid (s := mach none 0) Memory.nil_wf 0x0A 0x07 3998,
    State.readFb_fillGrid (s := mach none 0) Memory.nil_wf 0x0A 0x07 3999⟩

/-! ## The widths of R5 as arguments (by hand from R8: the low bits of the field) -/

/-- 0x7D4 mod 2^10 = 0x3D4, 0x7D5 mod 2^10 = 0x3D5, and 0x1B8000 mod 2^20 = 0xB8000. -/
theorem test_narrow_port_and_address :
    selAfter (exec (.iowrb 0x7D4 0x0A) (narrowMach none 0)) = some (some 0x0A) ∧
    responseOf (exec (.iordb 0x7D5) (narrowMach (some 0x0F) 0x1234)) = some (some 0x34) ∧
    responseOf (exec (.memrdb 0x1B8000) { narrowMach none 0 with fb := [(0, 0x41)] }) = some (some 0x41) := by decide

/-- 0xFF is -1 in 8 bits, 0x14F is 79; 0x10A0 mod 2^12 = 160. -/
theorem test_narrow_coordinate_and_offset :
    responseOf (exec (.offset 0xFF 3) (narrowMach none 0)) = some (some 480) ∧
    responseOf (exec (.offset 0x14F 0) (narrowMach none 0)) = some (some 158) ∧
    responseOf (exec (.rowof 0x10A0) (narrowMach none 0)) = some (some 1) := by decide

/-- SETCUR of 4002 div 2 = 2001 fits 11 bits; with 16 offset bits, 4098 div 2 mod 2^11 = 1; an IOWRB of 0x0F to the high byte
keeps its low three bits. -/
theorem test_narrow_cursor :
    curAfter (exec (.setcur 4002) (narrowMach none 0)) = some 2001 ∧
    curAfter (exec (.setcur 4098) { narrowMach none 0 with params := { narrow with offsetWidth := 14 } }) = some 1 ∧
    curAfter (exec (.iowrb 0x3D5 0x0F) (narrowMach (some 0x0E) 0x0012)) = some 0x0712 := by decide

/-! ## Host sequences written out -/

/-- H5: one GETCUR and one ROWOF resolve a Current row; the messages are "a\nb" and its CH_NUL. -/
theorem test_printAt_trace :
    expandSequence defaultParams (.printAt [0x61, 0x0A, 0x62, 0x00] (.at (-3)) .current 0x07) =
      some [issueGetcur, issueRowof .seqO,
        issueWrchar (.lit (-3)) (.resp .seqR) 0x61 0x07, issueSetcur, issueColof .seqN, issueRowof .seqN,
        issueWrchar (.resp .seqC) (.resp .seqR) 0x0A 0x07, issueSetcur, issueColof .seqN, issueRowof .seqN,
        issueWrchar (.resp .seqC) (.resp .seqR) 0x62 0x07, issueSetcur, issueColof .seqN, issueRowof .seqN] := by decide

/-- H3: an empty message still resolves its coordinates. -/
theorem test_printAt_empty :
    expandSequence defaultParams (.printAt [0x00] .current .current 0x07) =
      some [issueGetcur, issueColof .seqO, issueRowof .seqO] := by decide

/-! ## Witnesses: for each statement with hypotheses, a state and operands that meet them -/

/-- A request of the host for a word with response names as operands. -/
def wordWith (w : CommandWord) (operands : List (OperandField × RespName)) : HostItem :=
  .issue { agent := .host, request := .command w operands, into := none }

/-- A request of another agent. -/
def foreign (r : Request) : HostItem := .issue { agent := .other 0, request := r, into := none }

/-- A wide access of the host. -/
def wide (addr : U32) (more : Nat) : HostItem := .issue { agent := .host, request := .wideMem addr more, into := none }

theorem witness_EncodingADecodedWordGivesItBack : decode 0x2000000000000000000000 = .ok .getcur := by decide

theorem witness_DecoderRejectsExactlyTheReservedWords :
    bitsOf 0x3300000000000000000000 87 80 ∉ definedOps ∧
    (bitsOf 0x0100010000000000000000 87 80 ∈ definedOps ∧
      ∃ r ∈ reservedRanges (bitsOf 0x0100010000000000000000 87 80), bitsOf 0x0100010000000000000000 r.1 r.2 ≠ 0) ∧
    (bitsOf 0x010000FFFF00000000FF00 87 80 ∈ definedOps ∧
      ∀ r ∈ reservedRanges (bitsOf 0x010000FFFF00000000FF00 87 80), bitsOf 0x010000FFFF00000000FF00 r.1 r.2 = 0) := by
  decide

/-- One word for each of the fourteen clauses, its operands at the top of their ranges. -/
theorem witness_DecodedOperandsAreTheirBitRanges :
    decode 0x010000FFFF00000000FF00 = .ok (.iowrb 0xFFFF 0xFF) ∧ decode 0x020000FFFF000000000000 = .ok (.iordb 0xFFFF) ∧
    decode 0x030000FFFF0000FFFF0000 = .ok (.iowrw 0xFFFF 0xFFFF) ∧ decode 0x040000FFFF000000000000 = .ok (.iordw 0xFFFF) ∧
    decode 0x05FFFFFFFF00000000FF00 = .ok (.memwrb 0xFFFFFFFF 0xFF) ∧
    decode 0x06FFFFFFFF000000000000 = .ok (.memrdb 0xFFFFFFFF) ∧
    decode 0x10FFFFFFFFFFFFFFFF0000 = .ok (.offset 0xFFFFFFFF 0xFFFFFFFF) ∧
    decode 0x11FFFFFFFF000000000000 = .ok (.rowof 0xFFFFFFFF) ∧ decode 0x12FFFFFFFF000000000000 = .ok (.colof 0xFFFFFFFF) ∧
    decode 0x2000000000000000000000 = .ok .getcur ∧ decode 0x21FFFFFFFF000000000000 = .ok (.setcur 0xFFFFFFFF) ∧
    decode 0x30FFFFFFFF00000000FFFF = .ok (.wrcell 0xFFFFFFFF 0xFF 0xFF) ∧
    decode 0x31FFFFFFFFFFFFFFFFFFFF = .ok (.wrchar 0xFFFFFFFF 0xFFFFFFFF 0xFF 0xFF) ∧
    decode 0x320000000000000000FFFF = .ok (.fill 0xFF 0xFF) := by decide

/-- A command without a name for its response, and one with a name whose response is named. -/
theorem witness_StepRunsTheDecodedCommand :
    (let s := taking (word 0x100000004F000000000000);
      s.faults = [] ∧ s.refusals = [] ∧
        s.pending = .issue { agent := .host, request := .command 0x100000004F000000000000 [], into := none } :: [] ∧
        decode 0x100000004F000000000000 = .ok (.offset 79 0)) ∧
    (let s := taking (.issue { agent := .host, request := .command 0x100000004F000000000000 [], into := some (.named 0) });
      s.faults = [] ∧ s.refusals = [] ∧
        s.pending = .issue { agent := .host, request := .command 0x100000004F000000000000 [], into := some (.named 0) } :: [] ∧
        decode 0x100000004F000000000000 = .ok (.offset 79 0) ∧ RespName.named 1 ≠ .named 0 ∧
        ∃ t, exec (.offset 79 0) { s with pending := [] } = .next t ∧ t.response = some 158) :=
  ⟨⟨rfl, rfl, rfl, by decide⟩, rfl, rfl, rfl, by decide, by decide, _, rfl, rfl⟩

/-- A state that holds the name `named 0` with the value given, about to take a word that uses it. -/
def naming (v : U32) (f : OperandField) (op : Byte) : State :=
  { taking (wordWith (packWord op 0 0 0 0) [(f, .named 0)]) with names := [(.named 0, v)] }

/-- Each field, the byte fields at 255; the byte fields at 256, where the byte is free; and a name that no command has given. -/
theorem witness_ResponseNamesBecomeOperands :
    (∀ f v op, (naming v f op).faults = [] ∧ (naming v f op).refusals = [] ∧ lookupName (naming v f op).names (.named 0) = some v ∧
      (naming v f op).pending =
        .issue { agent := .host, request := .command (packWord op 0 0 0 0) [(f, .named 0)], into := none } :: []) ∧
    decode (packWord 0x21 4 0 0 0) = .ok (.setcur 4) ∧ decode (packWord 0x10 0 3 0 0) = .ok (.offset 0 3) ∧
    (255 : U32).toNat < 256 ∧ decode (packWord 0x32 0 0 (BitVec.ofNat 8 (255 : U32).toNat) 0) = .ok (.fill 0xFF 0) ∧
    decode (packWord 0x32 0 0 0 (BitVec.ofNat 8 (255 : U32).toNat)) = .ok (.fill 0 0xFF) ∧ 256 ≤ (256 : U32).toNat ∧
    (∀ x : Byte, decode (packWord 0x32 0 0 x 0) = .ok (.fill x 0) ∧ decode (packWord 0x32 0 0 0 x) = .ok (.fill 0 x)) ∧
    lookupName (taking (wordWith (packWord 0x21 0 0 0 0) [(.a, .named 0)])).names (.named 0) = none :=
  ⟨fun _ _ _ => ⟨rfl, rfl, rfl, rfl⟩, by decide, by decide, by decide, by decide, by decide, by decide,
    fun x => ⟨decode_packWord_fill x 0, decode_packWord_fill 0 x⟩, by decide⟩

/-- A response above 0xFF used as a character does not end the run. -/
theorem test_wide_response_as_character_runs : ∃ t, step (naming 256 .c 0x32) = .next t := by
  have ha : assemble [(.named 0, 256)] (packWord 0x32 0 0 0 0) 0 [(.c, .named 0)] =
      some (packWord 0x32 0 0 (Config.freeByte 0) 0, 1) := by
    simp [assemble, lookupName, setField, responseByte, drawsFor]
  exact ⟨_, (step_assembled (s := naming 256 .c 0x32) (rest := []) rfl rfl ha (decode_packWord_fill _ 0)).trans rfl⟩

theorem witness_ReservedWordsFault :
    (taking (word 0x1300000000000000000100)).faults = [] ∧ (taking (word 0x1300000000000000000100)).refusals = [] ∧
    (taking (word 0x1300000000000000000100)).pending =
      .issue { agent := .host, request := .command 0x1300000000000000000100 [], into := none } :: [] ∧
    bitsOf 0x1300000000000000000100 87 80 ∉ definedOps ∧
    (taking (foreign (.command 0x1000000000000000000100 []))).pending =
      .issue { agent := .other 0, request := .command 0x1000000000000000000100 [], into := none } :: [] ∧
    bitsOf 0x1000000000000000000100 87 80 ∈ definedOps ∧
    ∃ r ∈ reservedRanges (bitsOf 0x1000000000000000000100 87 80), bitsOf 0x1000000000000000000100 r.1 r.2 ≠ 0 := by
  refine ⟨rfl, rfl, rfl, by decide, rfl, by decide⟩

theorem witness_SecondAgentIsRefused :
    (taking (foreign (.command 0x2000000000000000000000 []))).faults = [] ∧
    (taking (foreign (.command 0x2000000000000000000000 []))).refusals = [] ∧
    (taking (foreign (.command 0x2000000000000000000000 []))).pending =
      .issue { agent := .other 0, request := .command 0x2000000000000000000000 [], into := none } :: [] ∧
    decode 0x2000000000000000000000 = .ok .getcur ∧
    (taking (foreign (.wideMem 0xB8000 0))).pending =
      .issue { agent := .other 0, request := .wideMem 0xB8000 0, into := none } :: [] := by
  refine ⟨rfl, rfl, rfl, by decide, rfl⟩

/-- Two bytes inside the region, and an access across its end. -/
theorem witness_WideMemoryAccessIsRefused :
    ∀ a ∈ [((0xB8000 : U32), 0), (0xB8F9F, 2)],
      (taking (wide a.1 a.2)).faults = [] ∧ (taking (wide a.1 a.2)).refusals = [] ∧
      (taking (wide a.1 a.2)).pending = .issue { agent := .host, request := .wideMem a.1 a.2, into := none } :: [] :=
  fun _ _ => ⟨rfl, rfl, rfl⟩

theorem witness_StoppedMachineTakesNoCommand :
    (State.reset.recordFault .selectorUnset 0x02000003D5000000000000 none).faults ≠ [] ∧
    (State.reset.recordRefusal .selectorRead).refusals ≠ [] := by decide

theorem witness_IdleStepChangesNothing :
    State.reset.faults = [] ∧ State.reset.refusals = [] ∧ State.reset.pending = [] := by decide

/-- The selector port; the data port under each selector; and the ports beside the two. -/
theorem witness_PortByteWriteReaction :
    ((0x3D4 : U16) = defaultParams.readPort 0x3D4 ∧ (0x3D4 : U16) = defaultParams.selPort) ∧
    ((0x3D4 : U16) = narrow.readPort 0x7D4 ∧ (0x3D4 : U16) = narrow.selPort) ∧
    ((0x3D5 : U16) = defaultParams.readPort 0x3D5 ∧ (0x3D5 : U16) ≠ defaultParams.selPort ∧ (0x3D5 : U16) = defaultParams.dataPort) ∧
    (mach none 0).sel = none ∧ (mach (some 0x0E) 0).sel = some (mach (some 0x0E) 0).params.curHiIdx ∧
    ((mach (some 0x0F) 0).sel = some (mach (some 0x0F) 0).params.curLoIdx ∧ defaultParams.curLoIdx ≠ defaultParams.curHiIdx) ∧
    ((mach (some 0x0D) 0).sel = some 0x0D ∧ (0x0D : Byte) ≠ defaultParams.curHiIdx ∧ (0x0D : Byte) ≠ defaultParams.curLoIdx) ∧
    ((0x3D3 : U16) = defaultParams.readPort 0x3D3 ∧ (0x3D3 : U16) ≠ defaultParams.selPort ∧
      (0x3D3 : U16) ≠ defaultParams.dataPort) ∧
    ((0x3D6 : U16) = defaultParams.readPort 0x3D6 ∧ (0x3D6 : U16) ≠ defaultParams.selPort ∧ (0x3D6 : U16) ≠ defaultParams.dataPort) := by decide

/-- The data port under each selector; the selector port; and a port beside the two. -/
theorem witness_PortByteReadReaction :
    (0x3D5 : U16) = defaultParams.readPort 0x3D5 ∧ (0x3D5 : U16) = defaultParams.dataPort ∧
    ((0x3D5 : U16) = narrow.readPort 0x7D5 ∧ (0x3D5 : U16) = narrow.dataPort) ∧ (mach none 0).sel = none ∧
    (mach (some 0x0E) 0).sel = some (mach (some 0x0E) 0).params.curHiIdx ∧
    ((mach (some 0x0F) 0).sel = some (mach (some 0x0F) 0).params.curLoIdx ∧ defaultParams.curLoIdx ≠ defaultParams.curHiIdx) ∧
    ((mach (some 0x10) 0).sel = some 0x10 ∧ (0x10 : Byte) ≠ defaultParams.curHiIdx ∧ (0x10 : Byte) ≠ defaultParams.curLoIdx) ∧
    ((0x3D4 : U16) = defaultParams.readPort 0x3D4 ∧ (0x3D4 : U16) ≠ defaultParams.dataPort ∧ (0x3D4 : U16) = defaultParams.selPort) ∧
    ((0x3D6 : U16) = defaultParams.readPort 0x3D6 ∧ (0x3D6 : U16) ≠ defaultParams.dataPort ∧ (0x3D6 : U16) ≠ defaultParams.selPort) := by decide

theorem witness_WordPortCommandsAreRefused :
    ((0x3D4 : U16) = defaultParams.readPort 0x3D4 ∧
      ((0x3D4 : U16) = defaultParams.selPort ∨ (0x3D4 : U16) = defaultParams.dataPort)) ∧
    ((0x3D5 : U16) = narrow.readPort 0x7D5 ∧ ((0x3D5 : U16) = narrow.selPort ∨ (0x3D5 : U16) = narrow.dataPort)) ∧
    ((0x3D3 : U16) = defaultParams.readPort 0x3D3 ∧ (0x3D3 : U16) ≠ defaultParams.selPort ∧ (0x3D3 : U16) ≠ defaultParams.dataPort) := by decide

/-- The first and the last byte of the region, and the addresses on either side of it. -/
theorem witness_HostByteWriteReachesTheFramebuffer :
    State.reset.fb.wf ∧
    (0 < 4000 ∧ (State.reset.params.readAddr 0xB8000).toNat = State.reset.params.fbBase.toNat + 0) ∧
    (3999 < 4000 ∧ (State.reset.params.readAddr 0xB8F9F).toNat = State.reset.params.fbBase.toNat + 3999) ∧
    (0 < 4000 ∧ (narrow.readAddr 0x1B8000).toNat = narrow.fbBase.toNat + 0) ∧
    (State.reset.params.readAddr 0xB7FFF).toNat < State.reset.params.fbBase.toNat ∧
    State.reset.params.fbBase.toNat + 4000 ≤ (State.reset.params.readAddr 0xB8FA0).toNat :=
  ⟨Memory.nil_wf, by decide⟩

theorem witness_HostByteReadAnswersTheFramebuffer :
    (0 < 4000 ∧ (State.reset.params.readAddr 0xB8000).toNat = State.reset.params.fbBase.toNat + 0) ∧
    (3999 < 4000 ∧ (State.reset.params.readAddr 0xB8F9F).toNat = State.reset.params.fbBase.toNat + 3999) ∧
    (0 < 4000 ∧ (narrow.readAddr 0x1B8000).toNat = narrow.fbBase.toNat + 0) ∧
    (State.reset.params.readAddr 0xB7FFF).toNat < State.reset.params.fbBase.toNat ∧
    State.reset.params.fbBase.toNat + 4000 ≤ (State.reset.params.readAddr 0xB8FA0).toNat := by decide

/-- The condition of a clamped column. -/
abbrev ColumnClamps (col : U32) (c : Int) : Prop :=
  col.toInt < 0 ∧ c = 0 ∨ 0 ≤ col.toInt ∧ col.toInt ≤ 79 ∧ c = col.toInt ∨ 80 ≤ col.toInt ∧ c = 79

/-- The condition of a clamped row. -/
abbrev RowClamps (row : U32) (r : Int) : Prop :=
  row.toInt < 0 ∧ r = 0 ∨ 0 ≤ row.toInt ∧ row.toInt ≤ 24 ∧ r = row.toInt ∨ 25 ≤ row.toInt ∧ r = 24

/-- Every case and its boundaries at R5's width, and -1 and 79 at 8 bits. -/
theorem witness_OffsetClampsThenComputes :
    (let p := State.reset.params;
      ColumnClamps (p.readCoord (-2147483648)) 0 ∧ ColumnClamps (p.readCoord (-1)) 0 ∧ ColumnClamps (p.readCoord 0) 0 ∧
      ColumnClamps (p.readCoord 79) 79 ∧ ColumnClamps (p.readCoord 80) 79 ∧ ColumnClamps (p.readCoord 2147483647) 79) ∧
    (let p := State.reset.params;
      RowClamps (p.readCoord (-2147483648)) 0 ∧ RowClamps (p.readCoord (-1)) 0 ∧ RowClamps (p.readCoord 0) 0 ∧
      RowClamps (p.readCoord 24) 24 ∧ RowClamps (p.readCoord 25) 24 ∧ RowClamps (p.readCoord 2147483647) 24) ∧
    ColumnClamps (narrow.readCoord 0xFF) 0 ∧ ColumnClamps (narrow.readCoord 0x14F) 79 := by
  refine ⟨⟨?_, ?_, ?_, ?_, ?_, ?_⟩, ⟨?_, ?_, ?_, ?_, ?_, ?_⟩, ?_, ?_⟩ <;> decide

theorem witness_ColumnOfHalvesTheRest : (0xFFF : U32) = narrow.readOffset 0xFFFFFFFF := by decide

theorem witness_CalculatorIsConsistent : narrow.WellFormed ∧ (79 : U32).toNat < 80 ∧ (24 : U32).toNat < 25 := by decide

/-- The ends of each law's range, the four values it names, and the clamped pair. -/
theorem witness_CalculatorLaws :
    State.reset.params.WellFormed ∧
    ((3998 : U32).toNat % 2 = 0 ∧ (3998 : U32).toNat ≤ 3998) ∧
    (4000 ≤ (4000 : U32).toNat ∧ 4000 ≤ (0x1FFFE : U32).toNat ∧ 4000 ≤ (0xFFFFFFFF : U32).toNat ∧
      (0xFFFFFFFF : U32).toNat < 2 ^ State.reset.params.offsetWidth) ∧
    ((1 : U32).toNat % 2 = 1 ∧ (3999 : U32).toNat % 2 = 1 ∧ (3999 : U32).toNat ≤ 3999) ∧
    (let x := State.reset.params.readCoord 80
      let c : U32 := 79
      x.toInt < 0 ∧ c = 0 ∨ 0 ≤ x.toInt ∧ x.toInt ≤ 79 ∧ c = x ∨ 80 ≤ x.toInt ∧ c = 79) ∧
    (let y := State.reset.params.readCoord (-1)
      let r : U32 := 0
      y.toInt < 0 ∧ r = 0 ∨ 0 ≤ y.toInt ∧ y.toInt ≤ 24 ∧ r = y ∨ 25 ≤ y.toInt ∧ r = 24) ∧
    ((78 : U32).toNat < 79 ∧ (24 : U32).toNat < 25) ∧ (23 : U32).toNat < 24 := by decide

theorem witness_GetcurAnswersTwiceTheCursor : State.reset.params.WellFormed := by decide

theorem witness_SetcurStoresHalfTheOffset :
    (mach (some 0x0A) 0xFFFF).params.WellFormed ∧ (narrowMach none 0).params.WellFormed := by decide

theorem witness_CursorRoundTrip :
    State.reset.params.WellFormed ∧ (0x1FFFE : U32).toNat % 2 = 0 ∧
    (0x1FFFE : U32).toNat < 2 ^ (State.reset.params.curWidth + 1) := by decide

theorem witness_CursorCommandsAreTheirPortSeries :
    State.reset.params.WellFormed ∧
    1999 = (State.reset.params.readOffset 3998).toNat / 2 % 2 ^ State.reset.params.curWidth ∧
    (0x07 : Byte).toNat = 1999 / 256 ∧ (0xCF : Byte).toNat = 1999 % 256 := by decide

/-- The first and the last cell, an odd offset, and the offset after the last cell. -/
theorem witness_WrcellWritesOneCellOrFaults :
    State.reset.fb.wf ∧
    (let p := State.reset.params;
      ((p.readOffset 0).toNat % 2 = 0 ∧ (p.readOffset 0).toNat ≤ 3998) ∧
      ((p.readOffset 3998).toNat % 2 = 0 ∧ (p.readOffset 3998).toNat ≤ 3998) ∧ (p.readOffset 3999).toNat % 2 ≠ 0 ∧
      3998 < (p.readOffset 4000).toNat) ∧
    ((narrow.readOffset 0x1000).toNat % 2 = 0 ∧ (narrow.readOffset 0x1000).toNat ≤ 3998) :=
  ⟨Memory.nil_wf, by decide⟩

/-- A character and a newline, at a clamped pair; rows 23 and 24 for the newline's two clauses. -/
theorem witness_WrcharWritesTheCellOrMovesDown :
    State.reset.fb.wf ∧ ColumnClamps (State.reset.params.readCoord 80) (79 : Nat) ∧
    RowClamps (State.reset.params.readCoord 23) (23 : Nat) ∧ RowClamps (State.reset.params.readCoord 25) (24 : Nat) ∧
    (0x41 : Byte) ≠ State.reset.params.chNewline ∧ (0x0A : Byte) = State.reset.params.chNewline ∧ 23 < 24 :=
  ⟨Memory.nil_wf, by decide⟩

theorem witness_FillWritesEveryCell : State.reset.fb.wf ∧ 1999 < 2000 := ⟨Memory.nil_wf, by decide⟩

theorem witness_FillIsTheSeriesOfCellWrites : State.reset.params.WellFormed := by decide

theorem witness_CharacterWriterLaws :
    State.reset.params.WellFormed ∧ State.reset.fb.wf ∧ (0x41 : Byte) ≠ State.reset.params.chNewline ∧
    (79 : U32).toNat < 80 ∧ (24 : U32).toNat < 25 ∧ (78 : U32).toNat < 79 ∧ (79 : U32).toNat = 79 ∧ (23 : U32).toNat < 24 ∧ (24 : U32).toNat = 24 :=
  ⟨by decide, Memory.nil_wf, by decide⟩

/-- Each of the five commands completes somewhere. -/
theorem witness_FrameOfCommandsThatOnlyAnswer :
    (∃ t, exec (.iordb 0x3D5) (mach (some 0x0F) 0) = .next t) ∧ (∃ t, exec (.memrdb 0xB8000) State.reset = .next t) ∧
    (∃ t, exec (.offset (-5) 100) State.reset = .next t) ∧ (∃ t, exec (.rowof 4000) State.reset = .next t) ∧
    ∃ t, exec (.colof 4000) State.reset = .next t :=
  ⟨⟨_, rfl⟩, ⟨_, rfl⟩, ⟨_, rfl⟩, ⟨_, rfl⟩, _, rfl⟩

/-- Both ports, both cursor registers, and the two cursor commands. -/
theorem witness_FrameOfPortAndCursorCommands :
    (mach none 0x1234).Inv ∧ (mach (some 0x0E) 0x1234).Inv ∧ (mach (some 0x0F) 0x1234).Inv ∧
    State.reset.params.readPort 0x3D4 = State.reset.params.selPort ∧
    State.reset.params.readPort 0x3D5 ≠ State.reset.params.selPort ∧
    (∃ t, exec (.iowrb 0x3D4 0x0E) (mach none 0x1234) = .next t) ∧
    (∃ t, exec (.iowrb 0x3D5 0x07) (mach (some 0x0E) 0x1234) = .next t) ∧
    (∃ t, exec (.iowrb 0x3D5 0x07) (mach (some 0x0F) 0x1234) = .next t) ∧
    (∃ t, exec .getcur (mach none 0x1234) = .next t) ∧ (∃ t, exec (.setcur 4) (mach none 0x1234) = .next t) ∧
    (mach (some 0x0E) 0).sel = some (mach (some 0x0E) 0).params.curHiIdx ∧
    (mach (some 0x0F) 0).sel ≠ some (mach (some 0x0F) 0).params.curHiIdx :=
  ⟨⟨by decide, Memory.nil_wf, by decide⟩, ⟨by decide, Memory.nil_wf, by decide⟩, ⟨by decide, Memory.nil_wf, by decide⟩,
    by decide, by decide, ⟨_, rfl⟩, ⟨_, rfl⟩, ⟨_, rfl⟩, ⟨_, rfl⟩, ⟨_, rfl⟩, by decide⟩

/-- Each of the four commands completes somewhere, WRCHAR on a character and on a newline. -/
theorem witness_FrameOfFramebufferWriters :
    (∃ t, exec (.memwrb 0xB8F9F 0x41) State.reset = .next t) ∧ (∃ t, exec (.wrcell 3998 0x41 0x07) State.reset = .next t) ∧
    (∃ t, exec (.wrchar 200 (-1) 0x51 0x07) State.reset = .next t) ∧
    (∃ t, exec (.wrchar 200 (-1) 0x0A 0x07) State.reset = .next t) ∧ (0x0A : Byte) = State.reset.params.chNewline ∧
    ∃ t, exec (.fill 0x0A 0x07) State.reset = .next t :=
  ⟨⟨_, rfl⟩, ⟨_, rfl⟩, ⟨_, rfl⟩, ⟨_, rfl⟩, rfl, _, rfl⟩

theorem witness_CommandsLeaveRecordsAndHostAlone :
    ∃ t, exec (.wrchar 79 24 0x43 0x07) { State.reset with pending := [word 0], names := [(.named 0, 1)] } = .next t :=
  ⟨_, rfl⟩

/-- A command that changes CUR, one that changes SEL, and one that changes FB. -/
theorem witness_OnlyTheseCommandsChangeEachRegister :
    (∃ t, exec (.setcur 2) (mach none 0) = .next t ∧ t.cur ≠ (mach none 0).cur) ∧
    (∃ t, exec .getcur (mach none 0) = .next t ∧ t.sel ≠ (mach none 0).sel) ∧
    (∃ t, exec (.memwrb 0xB8000 (Config.resetFb 0)) { mach none 0 with fb := [(0, 0x41)] } = .next t ∧
      t.fb ≠ [(0, 0x41)]) := by
  refine ⟨⟨_, rfl, by decide⟩, ⟨_, rfl, by decide⟩, _, rfl, ?_⟩
  show Memory.write [(0, 0x41)] 0 (Config.resetFb 0) ≠ [(0, 0x41)]
  simp [Memory.write, unlisted, Memory.erase]

theorem witness_CommandsCompleteExactlyWithinTheBlock : State.reset.params.WellFormed := by decide

/-- A faulting and a refused command. -/
theorem witness_StoppedCommandsOnlyRecord :
    (∃ f, exec (.wrcell 4000 0x41 0x07) State.reset = .fault f) ∧ (∃ r, exec (.iordb 0x80) State.reset = .refused r) :=
  ⟨⟨_, rfl⟩, _, rfl⟩

/-- A faulting and a refused command, and a request that cannot be issued. -/
theorem witness_EveryStopIsPrecise :
    (∃ f, step (taking (word 0x3000000FA0000000004107)) = .fault f) ∧
    (∃ r, step (taking (word 0x0200000080000000000000)) = .refused r) ∧
    ∃ r, step (taking (wordWith (packWord 0x21 0 0 0 0) [(.a, .named 0)])) = .refused r :=
  ⟨⟨_, rfl⟩, ⟨_, rfl⟩, _, rfl⟩

theorem witness_RecordsAreNeverCleared :
    (∃ t, step (taking (word 0x2100000F9E000000000000)) = .next t) ∧
    (∃ f, step (taking (word 0x3000000FA0000000004107)) = .fault f) ∧
    (∃ r t, step (taking (word 0x0200000080000000000000)) = .refused r ∧ r.left = some t) ∧
    (State.reset.recordRefusal .selectorRead).refusals ≠ [] :=
  ⟨⟨_, rfl⟩, ⟨_, rfl⟩, ⟨_, _, rfl, rfl⟩, by decide⟩

theorem witness_ParametersAreFixedForARun : ∃ t, step (taking (word 0x320000000000000000200F)) = .next t := ⟨_, rfl⟩

theorem witness_ResetState : 3999 < 4000 ∧ defaultParams.curWidth = 16 := by decide

/-- R5's widths, and for each case of a coordinate a value at its boundary. -/
theorem witness_OperandsAreReadAtTheirWidths :
    defaultParams.WellFormed ∧ narrow.WellFormed ∧ defaultParams.portWidth = 16 ∧ defaultParams.addrWidth = 32 ∧
    defaultParams.offsetWidth = 32 ∧ defaultParams.coordWidth = 32 ∧ defaultParams.curWidth = 16 ∧
    (127 = (0x17F : U32).toNat % 2 ^ narrow.coordWidth ∧ 127 < 2 ^ (narrow.coordWidth - 1)) ∧
    (128 = (0x80 : U32).toNat % 2 ^ narrow.coordWidth ∧ 2 ^ (narrow.coordWidth - 1) ≤ 128) := by decide

theorem witness_InvariantHoldsAtReset : narrow.WellFormed := by decide

theorem witness_EveryStepKeepsTheInvariant :
    (taking (word 0x320000000000000000200F)).Inv ∧ ∃ t, step (taking (word 0x320000000000000000200F)) = .next t :=
  ⟨taking_inv _, _, rfl⟩

theorem witness_FramebufferIsReadOnlyByMemrdb :
    (∀ addr, Instr.wrcell 3998 0x41 0x07 ≠ .memrdb addr) ∧ ∃ t, exec (.wrcell 3998 0x41 0x07) State.reset = .next t :=
  ⟨fun _ h => by simp at h, _, rfl⟩

theorem witness_SelectorMattersOnlyToPortCommands :
    State.reset.params.WellFormed ∧ (∀ port v, Instr.getcur ≠ .iowrb port v) ∧ (∀ port, Instr.getcur ≠ .iordb port) ∧
    ∃ t, exec .getcur State.reset = .next t :=
  ⟨by decide, fun _ _ h => by simp at h, fun _ h => by simp at h, _, rfl⟩

theorem witness_ClearBlanksAndHomes :
    (taking (.call .clear)).Inv ∧ (taking (.call .clear)).faults = [] ∧ (taking (.call .clear)).refusals = [] ∧
    (taking (.call .clear)).pending = .call .clear :: [] ∧ 1999 < 2000 :=
  ⟨taking_inv _, rfl, rfl, rfl, by decide⟩

/-- A machine at the cursor given, about to take one host sequence. -/
def calling (cur : U16) (q : HostSequence) : State := { taking (.call q) with cur := cur }

/-- H6: both axes Current from offset 4000; and both explicit. -/
theorem witness_PrintCharacterWritesAndAdvances :
    (let s := calling 0x07D0 (.printCharacter 0x78 .current .current 0x07);
      s.Inv ∧ s.faults = [] ∧ s.refusals = [] ∧ s.pending = .call (.printCharacter 0x78 .current .current 0x07) :: [] ∧
        (0 : U32).toNat = 2 * s.cur.toNat % 160 / 2 ∧ (25 : U32).toNat = 2 * s.cur.toNat / 160) ∧
    (let s := calling 0x07D0 (.printCharacter 0x0A (.at (-3)) (.at 100) 0x07);
      s.Inv ∧ s.faults = [] ∧ s.refusals = [] ∧ s.pending = .call (.printCharacter 0x0A (.at (-3)) (.at 100) 0x07) :: []) :=
  ⟨⟨⟨by decide, Memory.nil_wf, by decide⟩, rfl, rfl, rfl, by decide⟩, ⟨by decide, Memory.nil_wf, by decide⟩, rfl, rfl, rfl⟩

theorem witness_PrintIsPrintAtTheCursor :
    State.reset.faults = [] ∧ State.reset.refusals = [] ∧ State.reset.params.chNul ∈ [(0x41 : Byte), 0x00] := by decide

/-- H2: "ok" from (78, 0), and a message that ends on the last cell. -/
theorem witness_PrintAdvancesTwoBytesPerCharacter :
    (let s := calling 5 (.printAt ([0x6F, 0x6B] ++ defaultParams.chNul :: []) (.at 78) (.at 0) 0x07);
      s.Inv ∧ s.faults = [] ∧ s.refusals = [] ∧
        s.pending = .call (.printAt ([0x6F, 0x6B] ++ s.params.chNul :: []) (.at 78) (.at 0) 0x07) :: [] ∧
        156 = 2 * (clampRow (s.params.readCoord 0) * 80 + clampCol (s.params.readCoord 78)) ∧
        (∀ b ∈ [(0x6F : Byte), 0x6B], b ≠ s.params.chNewline ∧ b ≠ s.params.chNul) ∧ 156 + 2 * 2 ≤ 4000) ∧
    (let s := calling 1999 (.printAt ([0x78] ++ defaultParams.chNul :: []) .current .current 0x07);
      s.Inv ∧ s.pending = .call (.printAt ([0x78] ++ s.params.chNul :: []) .current .current 0x07) :: [] ∧
        (79 : U32).toNat = 2 * s.cur.toNat % 160 / 2 ∧ (24 : U32).toNat = 2 * s.cur.toNat / 160 ∧
        3998 = 2 * (clampRow (s.params.readCoord 24) * 80 + clampCol (s.params.readCoord 79)) ∧ 3998 + 2 * 1 ≤ 4000) :=
  ⟨⟨⟨by decide, Memory.nil_wf, by decide⟩, rfl, rfl, rfl, by decide⟩, ⟨by decide, Memory.nil_wf, by decide⟩, rfl, by decide⟩

/-- P3: "ABC" from offset 3996, whose positions are 3996, 3998 and 3840. -/
theorem witness_PrintPastTheEndCyclesTheLastRow :
    (let s := calling 1998 (.printAt ([0x41, 0x42, 0x43] ++ defaultParams.chNul :: []) .current .current 0x07);
      s.Inv ∧ s.faults = [] ∧ s.refusals = [] ∧
        s.pending = .call (.printAt ([0x41, 0x42, 0x43] ++ s.params.chNul :: []) .current .current 0x07) :: [] ∧
        (78 : U32).toNat = 2 * s.cur.toNat % 160 / 2 ∧ (24 : U32).toNat = 2 * s.cur.toNat / 160 ∧
        3996 = 2 * (clampRow (s.params.readCoord 24) * 80 + clampCol (s.params.readCoord 78)) ∧
        (∀ b ∈ [(0x41 : Byte), 0x42, 0x43], b ≠ s.params.chNewline ∧ b ≠ s.params.chNul)) ∧
    ∃ pos : Nat → Nat, (∀ i, pos i = if 3996 + 2 * i < 4000 then 3996 + 2 * i else 3840 + (3996 + 2 * i - 4000) % 160) ∧
      pos 0 = 3996 ∧ pos 1 = 3998 ∧ pos 2 = 3840 :=
  ⟨⟨⟨by decide, Memory.nil_wf, by decide⟩, rfl, rfl, rfl, by decide⟩, _, fun _ => rfl, by decide⟩

/-- H5: "a", a newline and "b" from column -3 and the cursor's row 0, at positions 0, 2 and 160; and H4: a newline on row 24. -/
theorem witness_PrintFollowsTheNewlines :
    (let s := calling 5 (.printAt ([0x61, 0x0A, 0x62] ++ defaultParams.chNul :: []) (.at (-3)) .current 0x07);
      s.Inv ∧ s.faults = [] ∧ s.refusals = [] ∧
        s.pending = .call (.printAt ([0x61, 0x0A, 0x62] ++ s.params.chNul :: []) (.at (-3)) .current 0x07) :: [] ∧
        (0 : U32).toNat = 2 * s.cur.toNat / 160 ∧ (∀ b ∈ [(0x61 : Byte), 0x0A, 0x62], b ≠ s.params.chNul) ∧
        0 = 2 * (clampRow (s.params.readCoord 0) * 80 + clampCol (s.params.readCoord (-3)))) ∧
    (∀ (i : Nat) (h : i < [(0x61 : Byte), 0x0A, 0x62].length), [0, 2, 160, 162].getD (i + 1) 0 =
      if [(0x61 : Byte), 0x0A, 0x62][i] = defaultParams.chNewline then
        (if [0, 2, 160, 162].getD i 0 < 3840 then 160 * ([0, 2, 160, 162].getD i 0 / 160 + 1) else 3840)
      else if [0, 2, 160, 162].getD i 0 + 2 < 4000 then [0, 2, 160, 162].getD i 0 + 2 else 3840) ∧
    (3840 = 2 * (clampRow (defaultParams.readCoord 24) * 80 + clampCol (defaultParams.readCoord 0)) ∧ ¬ 3840 < 3840) :=
  ⟨⟨⟨by decide, Memory.nil_wf, by decide⟩, rfl, rfl, rfl, by decide⟩, by decide, by decide⟩

/-- H3: the empty message with both axes Current; and with both explicit. -/
theorem witness_PrintOfAnEmptyMessage :
    (let s := calling 5 (.printAt (defaultParams.chNul :: []) .current .current 0x07);
      s.params.WellFormed ∧ s.faults = [] ∧ s.refusals = [] ∧
        s.pending = .call (.printAt (s.params.chNul :: []) .current .current 0x07) :: []) ∧
    (calling 5 (.printAt (defaultParams.chNul :: []) (.at 0) (.at 0) 0x07)).pending =
      .call (.printAt (defaultParams.chNul :: []) (.at 0) (.at 0) 0x07) :: [] ∧ Coord.at 0 ≠ .current :=
  ⟨⟨by decide, rfl, rfl, rfl⟩, rfl, by decide⟩

theorem witness_UnterminatedMessageIsNotPassed :
    (let s := calling 0 (.printAt [0x41] .current .current 0x07);
      s.faults = [] ∧ s.refusals = [] ∧ (∀ b ∈ [(0x41 : Byte)], b ≠ s.params.chNul) ∧
        s.pending = .call (.printAt [0x41] .current .current 0x07) :: []) ∧
    (calling 0 (.print [] 0x07)).pending = .call (.print [] 0x07) :: [] :=
  ⟨⟨rfl, rfl, by decide, rfl⟩, rfl⟩

/-! ## What the host asks of the fixed names -/

theorem test_core_is_this_machine : Sys2Proof.core.step = step ∧ Sys2Proof.core.reset = State.reset := ⟨rfl, rfl⟩

end Sys2Proof.Tests
end

/-! # Scope: parameters and the invariant (00_scope.md)

What a completed command, and then a completed step, can do to the state is said once (`exec_next_cases`, `step_next_cases`); the
frame of the parameters and the invariant are read off from these. -/

namespace Sys2Proof

open Machine

/-! ## What a field reads as at its parameter's width (R5, R8, R61) -/

/-- A port operand as a number (R61). -/
theorem Params.readPort_toNat (p : Params) (v : U16) : (p.readPort v).toNat = v.toNat % 2 ^ p.portWidth := zextN_toNat _ v

/-- A memory address operand as a number (R61). -/
theorem Params.readAddr_toNat (p : Params) (v : U32) : (p.readAddr v).toNat = v.toNat % 2 ^ p.addrWidth := zextN_toNat _ v

/-- A coordinate is the low COORD_WIDTH bits as two's complement: the number they spell below half the range, and that number
less 2^COORD_WIDTH from there on (R8, R61). -/
theorem Params.readCoord_toInt {p : Params} (h : p.WellFormed) (v : U32) {n : Nat} (hn : n = v.toNat % 2 ^ p.coordWidth) :
    (n < 2 ^ (p.coordWidth - 1) → (p.readCoord v).toInt = n) ∧
    (2 ^ (p.coordWidth - 1) ≤ n → (p.readCoord v).toInt = (n : Int) - 2 ^ p.coordWidth) := by
  obtain ⟨-, -, -, -, -, -, -, -, h32, -, -, -, -, h8⟩ := h
  have hc := sextN_cases (by omega) h32 v
  subst hn
  push_cast
  exact hc

/-- At R5's COORD_WIDTH a coordinate is the field itself. -/
theorem Params.readCoord_of_width {p : Params} (h : p.coordWidth = 32) (v : U32) : p.readCoord v = v := by
  rw [Params.readCoord, h, sextN_self]

/-- The cursor register holds no more than its CUR_WIDTH bits (R22). -/
theorem Params.keepCur_lt (p : Params) (v : U16) : (p.keepCur v).toNat < 2 ^ p.curWidth := by
  rw [keepCur_toNat]
  exact Nat.mod_lt _ (Nat.two_pow_pos _)

namespace Machine

/-! ## The start of a run (R5, R200) -/

theorem defaultParams_wellFormed : defaultParams.WellFormed := by decide

/-- The invariant holds at the start of a run with any well-formed parameters. -/
theorem State.resetWith_inv {p : Params} (h : p.WellFormed) : (State.resetWith p).Inv :=
  ⟨h, Memory.nil_wf, p.keepCur_lt _⟩

/-! ## What port accesses can do, whatever the parameters (R80, R81) -/

/-- `t` is what accesses to the ports can make of `s`: only SEL and CUR can differ, and CUR is as it was or a value the register
keeps. -/
def State.PortReach (s t : State) : Prop :=
  ∃ x c, t = { s with sel := x, cur := c } ∧ (c = s.cur ∨ ∃ v, c = s.params.keepCur v)

theorem State.PortReach.refl (s : State) : s.PortReach s := ⟨s.sel, s.cur, rfl, .inl rfl⟩

theorem State.portReach_select (s : State) (x : Option Byte) : s.PortReach { s with sel := x } := ⟨x, s.cur, rfl, .inl rfl⟩

theorem State.PortReach.trans {s t u : State} (h : s.PortReach t) (h' : t.PortReach u) : s.PortReach u := by
  obtain ⟨x, c, rfl, hc⟩ := h
  obtain ⟨y, d, rfl, hd⟩ := h'
  refine ⟨y, d, rfl, ?_⟩
  rcases hd with rfl | hd
  · exact hc
  · exact .inr hd

/-- A byte write to a port reaches no further than SEL and CUR. -/
theorem portWrite8_reach {p : U16} {v : Byte} {s t : State} (h : portWrite8 p v s = .ok t) : s.PortReach t := by
  rcases portWrite8_cases h with ⟨-, rfl⟩ | ⟨-, -, h⟩
  · exact s.portReach_select _
  · rcases dataWrite_cases h with ⟨-, rfl⟩ | ⟨-, -, rfl⟩
    · exact ⟨_, _, rfl, .inr ⟨_, rfl⟩⟩
    · exact ⟨_, _, rfl, .inr ⟨_, rfl⟩⟩

/-- So does selecting a register and writing it. -/
theorem selectWrite_reach {idx v : Byte} {s t : State} (h : selectWrite idx v s = .ok t) : s.PortReach t := by
  unfold selectWrite at h
  rw [portWrite8_selPort] at h
  exact (s.portReach_select _).trans (portWrite8_reach h)

/-- So does the series of SETCUR. -/
theorem setCursor_reach {off : U32} {s t : State} (h : setCursor off s = .ok t) : s.PortReach t := by
  unfold setCursor at h
  split at h
  · simp at h
  · next hu => exact (selectWrite_reach hu).trans (selectWrite_reach h)

/-- So does the series of GETCUR. -/
theorem getCursor_reach {s t : State} {v : Option U32} (h : getCursor s = .ok (t, v)) : s.PortReach t := by
  unfold getCursor at h
  split at h
  · simp at h
  · next hlo =>
    split at h
    · simp at h
    · next hhi =>
      obtain ⟨rfl, -⟩ := Prod.mk.inj (Except.ok.inj h)
      rw [selectRead_frame hhi, selectRead_frame hlo]
      exact s.portReach_select _

/-! ## What a completed command can do -/

theorem noResponse_eq_ok {x : Except Stop State} {u : State} {v : Option U32} :
    noResponse x = .ok (u, v) ↔ x = .ok u ∧ v = none := by
  cases x with
  | error e => simp
  | ok t => simp [eq_comm]

/-- A command that answers a byte changes nothing else. -/
theorem respondByte_state {s u : State} {x : Except Stop Byte} {v : Option U32} (h : respondByte s x = .ok (u, v)) : u = s := by
  cases x with
  | error e => simp at h
  | ok b => exact (Prod.mk.inj (Except.ok.inj h)).1.symm

/-- `u` is what the rule of a completed command can make of `s`, its response apart: port accesses at most, one byte of the
framebuffer, one cell of the grid, or every cell. -/
def State.Effect (s u : State) : Prop :=
  s.PortReach u ∨
  (∃ a v, s.inFramebuffer a 1 ∧ u = s.writeFb (a.toNat - s.params.fbBase.toNat) v) ∨
  (∃ o ch attr, o.toNat % 2 = 0 ∧ o.toNat ≤ 3998 ∧ u = s.putCell o ch attr) ∨
  ∃ ch attr, u = s.fillGrid ch attr

theorem State.Effect.refl (s : State) : s.Effect s := .inl (.refl s)

/-- An accepted cell write is one cell of the grid (R140). -/
theorem writeCell_effect {o : U32} {ch attr : Byte} {s t : State} (h : writeCell o ch attr s = .ok t) : s.Effect t := by
  obtain ⟨he, hl, rfl⟩ := writeCell_cases h
  exact .inr (.inr (.inl ⟨_, _, _, he, hl, rfl⟩))

/-- WRCHAR writes one cell of the grid, or nothing for a newline (R141). -/
theorem writeCharacter_effect {col row : U32} {ch attr : Byte} {s t : State} {v : Option U32}
    (h : writeCharacter col row ch attr s = .ok (t, v)) : s.Effect t := by
  rw [writeCharacter_eq] at h
  split at h
  · obtain ⟨rfl, -⟩ := Prod.mk.inj (Except.ok.inj h)
    exact .refl s
  · obtain ⟨rfl, -⟩ := Prod.mk.inj (Except.ok.inj h)
    obtain ⟨he, hl⟩ := offsetOf_range col row
    exact .inr (.inr (.inl ⟨_, _, _, he, hl, rfl⟩))

/-- Everything a completed command does: its effect, and its response delivered. -/
theorem exec_next_cases {i : Instr} {s t : State} (h : exec i s = .next t) :
    ∃ u v, s.Effect u ∧ t = { u with response := v } := by
  cases i with
  | iowrw _ _ | iordw _ => exact absurd h (stopWith_ne_next _ _ _ _)
  | iowrb port val8 =>
    obtain ⟨u, v, hu, rfl⟩ := conclude_eq_next.1 h
    exact ⟨u, v, .inl (portWrite8_reach (noResponse_eq_ok.1 hu).1), rfl⟩
  | memwrb addr val8 =>
    obtain ⟨u, v, hu, rfl⟩ := conclude_eq_next.1 h
    exact ⟨u, v, .inr (.inl ⟨_, _, memWrite_cases (noResponse_eq_ok.1 hu).1⟩), rfl⟩
  | iordb _ | memrdb _ =>
    obtain ⟨u, v, hu, rfl⟩ := conclude_eq_next.1 h
    exact ⟨u, v, respondByte_state hu ▸ .refl s, rfl⟩
  | offset _ _ | rowof _ | colof _ => exact ⟨s, _, .refl s, (Host.Outcome.next.inj h).symm⟩
  | getcur =>
    obtain ⟨u, v, hu, rfl⟩ := conclude_eq_next.1 h
    exact ⟨u, v, .inl (getCursor_reach hu), rfl⟩
  | setcur off =>
    obtain ⟨u, v, hu, rfl⟩ := conclude_eq_next.1 h
    exact ⟨u, v, .inl (setCursor_reach (noResponse_eq_ok.1 hu).1), rfl⟩
  | wrcell off ch attr =>
    obtain ⟨u, v, hu, rfl⟩ := conclude_eq_next.1 h
    exact ⟨u, v, writeCell_effect (noResponse_eq_ok.1 hu).1, rfl⟩
  | wrchar col row ch attr =>
    obtain ⟨u, v, hu, rfl⟩ := conclude_eq_next.1 h
    exact ⟨u, v, writeCharacter_effect hu, rfl⟩
  | fill ch attr => exact ⟨_, _, .inr (.inr (.inr ⟨ch, attr, rfl⟩)), (Host.Outcome.next.inj h).symm⟩

/-- A command's effect is on SEL, CUR and FB alone. -/
theorem State.Effect.frame {s u : State} (h : s.Effect u) : u = { s with sel := u.sel, cur := u.cur, fb := u.fb } := by
  rcases h with ⟨x, c, rfl, -⟩ | ⟨a, v, -, rfl⟩ | ⟨o, ch, attr, -, -, rfl⟩ | ⟨ch, attr, rfl⟩ <;> rfl

/-- A command's effect keeps the invariant: CUR takes only what the register keeps, and every byte written lies inside FB. -/
theorem State.Effect.inv {s u : State} (h : s.Effect u) (hs : s.Inv) : u.Inv := by
  obtain ⟨hp, hfb, hcur⟩ := hs
  rcases h with ⟨x, c, rfl, hc⟩ | ⟨a, v, hin, rfl⟩ | ⟨o, ch, attr, -, ho, rfl⟩ | ⟨ch, attr, rfl⟩
  · refine ⟨hp, hfb, ?_⟩
    rcases hc with rfl | ⟨v, rfl⟩
    · exact hcur
    · exact s.params.keepCur_lt v
  · exact ⟨hp, Memory.write_wf hfb (by have := hin.1; have := hin.2; omega) v, hcur⟩
  · exact ⟨hp, Memory.putCell_wf hfb (by omega) ch attr, hcur⟩
  · exact ⟨hp, State.fillGrid_wf hfb ch attr, hcur⟩

/-- A completed command writes SEL, CUR, FB and the response at most. -/
theorem exec_frame {i : Instr} {s t : State} (h : exec i s = .next t) :
    t = { s with sel := t.sel, cur := t.cur, fb := t.fb, response := t.response } := by
  obtain ⟨u, v, hu, rfl⟩ := exec_next_cases h
  rw [hu.frame]

theorem exec_params {i : Instr} {s t : State} (h : exec i s = .next t) : t.params = s.params := by
  rw [exec_frame h]

/-- A completed command keeps the invariant. -/
theorem exec_inv {i : Instr} {s t : State} (hs : s.Inv) (h : exec i s = .next t) : t.Inv := by
  obtain ⟨u, v, hu, rfl⟩ := exec_next_cases h
  exact hu.inv hs

/-! ## What a completed step can do -/

/-- Everything a completed step does: the host's program changes and nothing else does, or a command completes in a state that
differs in the host's program and the count of draws, and its response may be named. -/
theorem step_next_cases {s t : State} (h : step s = .next t) :
    (∃ items, t = { s with pending := items }) ∨
    ∃ i rest k u names, exec i { s with pending := rest, drawn := k } = .next u ∧ t = { u with names := names } := by
  rcases step_cases s with ⟨-, hs⟩ | ⟨-, -, hs⟩ | ⟨item, rest, -, -, hs⟩
  · simp [hs] at h
  · rw [hs] at h
    exact .inl ⟨s.pending, (Host.Outcome.next.inj h).symm⟩
  · rw [hs] at h
    rcases takeItem_cases item { s with pending := rest } with
      ⟨r, w, k, ht⟩ | ⟨r, k, ht⟩ | ⟨r, ht, -⟩ | ⟨items, ht⟩ | ⟨i, k, into, ht⟩
    · exact absurd (ht.symm.trans h) (stopWith_ne_next w _ t (.fault r none))
    · exact absurd (ht.symm.trans h) (stopWith_ne_next 0 _ t (.refuse r))
    · simp [ht] at h
    · exact .inl ⟨items, Host.Outcome.next.inj (h.symm.trans ht)⟩
    · obtain ⟨u, hu, hn⟩ := nameResponse_next (ht.symm.trans h)
      exact .inr ⟨i, rest, k, u, t.names, hu, hn⟩

/-- No completed step writes a parameter. -/
theorem step_params {s t : State} (h : step s = .next t) : t.params = s.params := by
  rcases step_next_cases h with ⟨items, rfl⟩ | ⟨i, rest, k, u, names, hu, rfl⟩
  · rfl
  · exact (exec_params hu :)

/-- Every completed step keeps the invariant: none of its parts speaks of the host's program, the names or the draws. -/
theorem step_inv {s t : State} (hs : s.Inv) (h : step s = .next t) : t.Inv := by
  rcases step_next_cases h with ⟨items, rfl⟩ | ⟨i, rest, k, u, names, hu, rfl⟩
  · exact hs
  · exact (exec_inv (s := { s with pending := rest, drawn := k }) hs hu :)

/-! ## The statements -/

/-- Settles O46: a completed step changes the host's program or completes one command, whose effect keeps the invariant. -/
theorem everyStepKeepsTheInvariant : Obligations.EveryStepKeepsTheInvariant := fun _ _ => step_inv

/-- Settles O41, by the frame of a completed command. -/
theorem parametersAreFixedForARun : Obligations.ParametersAreFixedForARun := fun _ _ => step_params

/-- Settles O43: the start of a run and the default record are as R5 gives them, by definition. -/
theorem parametersAreArgumentsWithDefaults : Obligations.ParametersAreArgumentsWithDefaults :=
  ⟨State.resetWith_params, rfl, rfl, rfl, rfl, rfl, rfl, rfl, rfl, rfl, rfl, rfl, rfl, rfl, rfl, rfl⟩

/-- Settles O44, from what `zext_n` and `sext_n` are as numbers. -/
theorem operandsAreReadAtTheirWidths : Obligations.OperandsAreReadAtTheirWidths := by
  intro p hp
  refine ⟨fun v => ⟨p.readPort_toNat v, fun h => zextN_of_le h.ge v⟩,
    fun v => ⟨p.readAddr_toNat v, fun h => zextN_of_le h.ge v⟩,
    fun v => ⟨p.readOffset_toNat v, fun h => zextN_of_le h.ge v⟩, fun v n hn => ?_,
    fun v => ⟨p.keepCur_toNat v, fun h => zextN_of_le h.ge v⟩⟩
  obtain ⟨hlow, hhigh⟩ := Params.readCoord_toInt hp v hn
  exact ⟨hlow, hhigh, fun h => Params.readCoord_of_width h v⟩

/-- Settles O45: R5's parameters are well formed, and any well-formed record starts a run in the invariant. -/
theorem invariantHoldsAtReset : Obligations.InvariantHoldsAtReset :=
  ⟨State.resetWith_inv defaultParams_wellFormed, fun _ => State.resetWith_inv⟩

end Machine

end Sys2Proof

/-! # State: what a command and a step can do to each part of it (10_state.md)

Three lemmas serve these statements: what each command writes (`exec_next_writes`), how a step can end (`step_outcome_cases`),
and that the commands which touch neither ports nor cursor and read no byte do the same from every SEL, CUR and FB
(`exec_of_paramsOnly`). -/

namespace Sys2Proof

/-- The commands that can write the framebuffer (R94, R140, R141, R142). -/
def Instr.WritesFb (i : Instr) : Prop :=
  (∃ a v, i = .memwrb a v) ∨ (∃ o c a, i = .wrcell o c a) ∨ (∃ x y c a, i = .wrchar x y c a) ∨ ∃ c a, i = .fill c a

/-- The commands of the calculator and those that write the framebuffer: they access no port and read no byte, so nothing but the
parameters decides whether they complete and what they answer. -/
def Instr.ParamsOnly : Instr → Prop
  | .offset _ _ | .rowof _ | .colof _ | .memwrb _ _ | .wrcell _ _ _ | .wrchar _ _ _ _ | .fill _ _ => True
  | .iowrb _ _ | .iordb _ | .iowrw _ _ | .iordw _ | .memrdb _ | .getcur | .setcur _ => False

namespace Machine

/-! ## The cursor commands' series of port accesses, whatever the parameters (R121, R122) -/

/-- Selecting a register and reading it is one read of the data port with that register selected (R204). -/
theorem selectRead_eq_ok {idx : Byte} {s t : State} {b : Byte} :
    selectRead idx s = .ok (t, b) ↔
      t = { s with sel := some idx } ∧ portRead8 s.params.dataPort { s with sel := some idx } = .ok b := by
  simp only [selectRead, portWrite8_selPort]
  cases portRead8 s.params.dataPort { s with sel := some idx } with
  | error e => simp
  | ok c => simp [eq_comm]

/-- Selecting a register and writing it is one write of the data port with that register selected (R204). -/
theorem selectWrite_eq (idx v : Byte) (s : State) :
    selectWrite idx v s = portWrite8 s.params.dataPort v { s with sel := some idx } := by
  simp only [selectWrite, portWrite8_selPort]

/-- GETCUR completes where both bytes can be read; it leaves SEL at CUR_HI_IDX and changes nothing else (R121). -/
theorem getCursor_eq_ok {s u : State} {v : Option U32} :
    getCursor s = .ok (u, v) ↔
      ∃ lo hi, portRead8 s.params.dataPort { s with sel := some s.params.curLoIdx } = .ok lo ∧
        portRead8 s.params.dataPort { s with sel := some s.params.curHiIdx } = .ok hi ∧
        u = { s with sel := some s.params.curHiIdx } ∧ v = some (cursorOffset hi lo) := by
  constructor
  · intro h
    unfold getCursor at h
    split at h
    · simp at h
    · next t lo hlo =>
      split at h
      · simp at h
      · next t' hi hhi =>
        obtain ⟨rfl, hl⟩ := selectRead_eq_ok.1 hlo
        obtain ⟨rfl, hh⟩ := selectRead_eq_ok.1 hhi
        obtain ⟨rfl, rfl⟩ := Prod.mk.inj (Except.ok.inj h)
        exact ⟨lo, hi, hl, hh, rfl, rfl⟩
  · rintro ⟨lo, hi, hlo, hhi, rfl, rfl⟩
    have h₁ := selectRead_eq_ok.2 ⟨rfl, hlo⟩
    have h₂ := selectRead_eq_ok (s := { s with sel := some s.params.curLoIdx }).2 ⟨rfl, hhi⟩
    simp only [getCursor, h₁, h₂, respond]

/-- SETCUR completes where both bytes can be written (R122). -/
theorem setCursor_eq_ok {off : U32} {s u : State} :
    setCursor off s = .ok u ↔
      ∃ t, selectWrite s.params.curHiIdx (highByte (cursorValue s.params off)) s = .ok t ∧
        selectWrite s.params.curLoIdx (lowByte (cursorValue s.params off)) t = .ok u := by
  unfold setCursor
  cases selectWrite s.params.curHiIdx (highByte (cursorValue s.params off)) s with
  | error e => simp
  | ok t => simp

/-! ## What each command writes -/

/-- IOWRB writes SEL on the selector port and CUR on the data port (R80, R81). -/
theorem exec_iowrb_cases {port : U16} {v : Byte} {s t : State} (h : exec (.iowrb port v) s = .next t) :
    (s.params.readPort port = s.params.selPort ∧ t = { s with sel := t.sel, response := t.response }) ∨
    (s.params.readPort port = s.params.dataPort ∧ t = { s with cur := t.cur, response := t.response }) := by
  obtain ⟨u, r, hu, rfl⟩ := conclude_eq_next.1 h
  rcases portWrite8_cases (noResponse_eq_ok.1 hu).1 with ⟨hp, rfl⟩ | ⟨-, hp, hd⟩
  · exact .inl ⟨hp, rfl⟩
  · rcases dataWrite_cases hd with ⟨-, rfl⟩ | ⟨-, -, rfl⟩
    · exact .inr ⟨hp, rfl⟩
    · exact .inr ⟨hp, rfl⟩

/-- GETCUR writes SEL at most (R121). -/
theorem exec_getcur_frame {s t : State} (h : exec .getcur s = .next t) :
    t = { s with sel := t.sel, response := t.response } := by
  obtain ⟨u, r, hu, rfl⟩ := conclude_eq_next.1 h
  obtain ⟨lo, hi, -, -, rfl, -⟩ := getCursor_eq_ok.1 hu
  rfl

/-- SETCUR writes SEL and CUR at most (R122). -/
theorem exec_setcur_frame {off : U32} {s t : State} (h : exec (.setcur off) s = .next t) :
    t = { s with sel := t.sel, cur := t.cur, response := t.response } := by
  obtain ⟨u, r, hu, rfl⟩ := conclude_eq_next.1 h
  obtain ⟨x, c, rfl, -⟩ := setCursor_reach (noResponse_eq_ok.1 hu).1
  rfl

/-- Everything a completed command writes besides its response: nothing, what IOWRB, GETCUR or SETCUR write, or FB alone. -/
theorem exec_next_writes {i : Instr} {s t : State} (h : exec i s = .next t) :
    t = { s with response := t.response } ∨
    (∃ port v, i = .iowrb port v ∧
      ((s.params.readPort port = s.params.selPort ∧ t = { s with sel := t.sel, response := t.response }) ∨
       (s.params.readPort port = s.params.dataPort ∧ t = { s with cur := t.cur, response := t.response }))) ∨
    (i = .getcur ∧ t = { s with sel := t.sel, response := t.response }) ∨
    (∃ off, i = .setcur off ∧ t = { s with sel := t.sel, cur := t.cur, response := t.response }) ∨
    (i.WritesFb ∧ t = { s with fb := t.fb, response := t.response }) := by
  cases i with
  | iowrw _ _ | iordw _ => exact absurd h (stopWith_ne_next _ _ _ _)
  | iordb _ | memrdb _ =>
    obtain ⟨u, v, hu, rfl⟩ := conclude_eq_next.1 h
    obtain rfl := respondByte_state hu
    exact .inl rfl
  | offset _ _ | rowof _ | colof _ =>
    obtain rfl := Host.Outcome.next.inj h
    exact .inl rfl
  | iowrb port v => exact .inr (.inl ⟨port, v, rfl, exec_iowrb_cases h⟩)
  | getcur => exact .inr (.inr (.inl ⟨rfl, exec_getcur_frame h⟩))
  | setcur off => exact .inr (.inr (.inr (.inl ⟨off, rfl, exec_setcur_frame h⟩)))
  | memwrb a v =>
    obtain ⟨u, r, hu, rfl⟩ := conclude_eq_next.1 h
    obtain ⟨-, rfl⟩ := memWrite_cases (noResponse_eq_ok.1 hu).1
    exact .inr (.inr (.inr (.inr ⟨.inl ⟨a, v, rfl⟩, rfl⟩)))
  | wrcell o c a =>
    obtain ⟨u, r, hu, rfl⟩ := conclude_eq_next.1 h
    obtain ⟨-, -, rfl⟩ := writeCell_cases (noResponse_eq_ok.1 hu).1
    exact .inr (.inr (.inr (.inr ⟨.inr (.inl ⟨o, c, a, rfl⟩), rfl⟩)))
  | wrchar x y c a =>
    obtain ⟨u, r, hu, rfl⟩ := conclude_eq_next.1 h
    refine .inr (.inr (.inr (.inr ⟨.inr (.inr (.inl ⟨x, y, c, a, rfl⟩)), ?_⟩)))
    rw [writeCharacter_eq] at hu
    split at hu <;> (obtain ⟨rfl, -⟩ := Prod.mk.inj (Except.ok.inj hu); rfl)
  | fill c a =>
    obtain rfl := Host.Outcome.next.inj h
    exact .inr (.inr (.inr (.inr ⟨.inr (.inr (.inr ⟨c, a, rfl⟩)), rfl⟩)))

/-! ## How a command and a step can end (R180 to R182, R184) -/

/-- What a rule gives is a next state or the command's stop. -/
theorem conclude_next_or_stop (w : CommandWord) (s : State) (x : Except Stop (State × Option U32)) :
    (∃ t, conclude w s x = .next t) ∨ ∃ e, conclude w s x = stopWith w s e := by
  cases x with
  | ok p => exact .inl ⟨_, rfl⟩
  | error e => exact .inr ⟨e, rfl⟩

/-- A command completes or stops in the state it began in, with its own word. -/
theorem exec_next_or_stop (i : Instr) (s : State) :
    (∃ t, exec i s = .next t) ∨ ∃ e, exec i s = stopWith (encode i) s e := by
  cases i with
  | iowrw _ _ | iordw _ => exact .inr ⟨_, rfl⟩
  | offset _ _ | rowof _ | colof _ | fill _ _ => exact .inl ⟨_, rfl⟩
  | _ => exact conclude_next_or_stop _ s _

/-- Naming a response leaves a stop as it is. -/
theorem nameResponse_stopWith (into : Option RespName) (w : CommandWord) (s : State) (e : Stop) :
    nameResponse into (stopWith w s e) = stopWith w s e := by
  cases e with
  | fault r o => exact nameResponse_raiseFault ..
  | refuse r => exact nameResponse_refuse ..

/-- Naming a response leaves a next state one. -/
theorem nameResponse_of_next (into : Option RespName) (t : State) : ∃ u, nameResponse into (.next t) = .next u := by
  simp only [nameResponse]
  split
  · exact ⟨_, rfl⟩
  · exact ⟨_, rfl⟩

/-- Every way a step can end: it completes, the machine had stopped before, the item cannot be issued and the state is as it was,
or a stop is recorded in a state that differs in the host's program and the count of draws. -/
theorem step_outcome_cases (s : State) :
    (∃ t, step s = .next t) ∨ step s = .fault (.quiescent s) ∨ (∃ r, step s = .refused r ∧ r.left = some s) ∨
    ∃ w rest k e, step s = stopWith w { s with pending := rest, drawn := k } e := by
  rcases step_cases s with ⟨-, hs⟩ | ⟨-, -, hs⟩ | ⟨item, rest, -, hp, hs⟩
  · exact .inr (.inl hs)
  · exact .inl ⟨s, hs⟩
  · rw [hs]
    rcases takeItem_cases item { s with pending := rest } with
      ⟨r, w, k, ht⟩ | ⟨r, k, ht⟩ | ⟨r, ht, hr⟩ | ⟨items, ht⟩ | ⟨i, k, into, ht⟩
    · exact .inr (.inr (.inr ⟨w, rest, k, .fault r none, ht⟩))
    · exact .inr (.inr (.inr ⟨0, rest, k, .refuse r, ht⟩))
    · exact .inr (.inr (.inl ⟨r, ht, by rw [hr, ← hp]⟩))
    · exact .inl ⟨_, ht⟩
    · rw [ht]
      rcases exec_next_or_stop i { s with pending := rest, drawn := k } with ⟨t, he⟩ | ⟨e, he⟩
      · exact .inl (he ▸ nameResponse_of_next into t)
      · exact .inr (.inr (.inr ⟨encode i, rest, k, e, by rw [he, nameResponse_stopWith]⟩))

/-- A fault leaves the state with one entry more in the fault record (R181). -/
theorem stopWith_fault_left {w : CommandWord} {s : State} {e : Stop} {f : Fault} (h : stopWith w s e = .fault f) :
    ∃ r o, f.left = s.recordFault r w o := by
  cases e with
  | fault r o =>
    refine ⟨r, o, ?_⟩
    cases r <;> (obtain rfl := Host.Outcome.fault.inj h; rfl)
  | refuse r => cases r <;> simp [refuse] at h

/-- A refusal leaves the state with one reason more in the refusal mark (R182). -/
theorem stopWith_refused_left {w : CommandWord} {s : State} {e : Stop} {r : Refusal} (h : stopWith w s e = .refused r) :
    ∃ x, r.left = some (s.recordRefusal x) := by
  cases e with
  | fault r o => cases r <;> simp [raiseFault] at h
  | refuse x =>
    refine ⟨x, ?_⟩
    cases x <;> (obtain rfl := Host.Outcome.refused.inj h; rfl)

/-- The state a fault leaves: the state before the step, or that state with the host's program moved on and one entry more in the
fault record. -/
theorem step_fault_left {s : State} {f : Fault} (h : step s = .fault f) :
    f.left = s ∨ ∃ rest k r w o, f.left = State.recordFault { s with pending := rest, drawn := k } r w o := by
  rcases step_outcome_cases s with ⟨t, hs⟩ | hs | ⟨r, hs, -⟩ | ⟨w, rest, k, e, hs⟩
  · simp [hs] at h
  · rw [hs] at h
    exact .inl (congrArg Fault.left (Host.Outcome.fault.inj h)).symm
  · simp [hs] at h
  · obtain ⟨r, o, hl⟩ := stopWith_fault_left (hs.symm.trans h)
    exact .inr ⟨rest, k, r, w, o, hl⟩

/-- The state a refusal leaves: the state before the step, or that state with the host's program moved on and one reason more in
the refusal mark. -/
theorem step_refused_left {s : State} {r : Refusal} (h : step s = .refused r) :
    r.left = some s ∨ ∃ rest k x, r.left = some (State.recordRefusal { s with pending := rest, drawn := k } x) := by
  rcases step_outcome_cases s with ⟨t, hs⟩ | hs | ⟨r', hs, hl⟩ | ⟨w, rest, k, e, hs⟩
  · simp [hs] at h
  · simp [hs] at h
  · obtain rfl := Host.Outcome.refused.inj (hs.symm.trans h)
    exact .inl hl
  · obtain ⟨x, hl⟩ := stopWith_refused_left (hs.symm.trans h)
    exact .inr ⟨rest, k, x, hl⟩

/-- A completed step writes neither record (R29). -/
theorem step_records {s t : State} (h : step s = .next t) : t.faults = s.faults ∧ t.refusals = s.refusals := by
  rcases step_next_cases h with ⟨items, rfl⟩ | ⟨i, rest, k, u, names, hu, rfl⟩
  · exact ⟨rfl, rfl⟩
  · rw [exec_frame hu]
    exact ⟨rfl, rfl⟩

/-! ## Commands that do the same from every SEL, CUR and FB -/

/-- An access inside the region is an accepted byte write (R87). -/
theorem memWrite_eq {a : U32} {s : State} (h : s.inFramebuffer a 1) (v : Byte) :
    memWrite a v s = .ok (s.writeFb (a.toNat - s.params.fbBase.toNat) v) := by
  simp only [memWrite, fbIndex, if_pos h]

/-- A command that accesses no port and reads no byte, where it completes, answers the same and changes FB in the same way
whatever SEL, CUR and FB hold, and changes nothing else. -/
theorem exec_of_paramsOnly {i : Instr} {s t : State} (h : exec i s = .next t) (hi : i.ParamsOnly) :
    ∃ (F : Memory → Memory) (v : Option U32), t = { s with fb := F s.fb, response := v } ∧ ∀ x c m,
      exec i { s with sel := x, cur := c, fb := m } = .next { s with sel := x, cur := c, fb := F m, response := v } := by
  suffices key : ∃ (F : Memory → Memory) (v : Option U32), ∀ x c m,
      exec i { s with sel := x, cur := c, fb := m } = .next { s with sel := x, cur := c, fb := F m, response := v } by
    obtain ⟨F, v, hF⟩ := key
    exact ⟨F, v, Host.Outcome.next.inj (h.symm.trans (hF s.sel s.cur s.fb)), hF⟩
  cases i with
  | iowrb _ _ | iordb _ | iowrw _ _ | iordw _ | memrdb _ | getcur | setcur _ => exact hi.elim
  | offset col row => exact ⟨id, some (offsetOf (s.params.readCoord col) (s.params.readCoord row)), fun _ _ _ => rfl⟩
  | rowof off => exact ⟨id, some (rowOf (s.params.readOffset off)), fun _ _ _ => rfl⟩
  | colof off => exact ⟨id, some (colOf (s.params.readOffset off)), fun _ _ _ => rfl⟩
  | memwrb addr b =>
    obtain ⟨u, v, hu, -⟩ := conclude_eq_next.1 h
    obtain ⟨hin, -⟩ := memWrite_cases (noResponse_eq_ok.1 hu).1
    refine ⟨(·.write ((s.params.readAddr addr).toNat - s.params.fbBase.toNat) b), none, fun x c m => conclude_eq_next.2 ?_⟩
    exact ⟨_, _, noResponse_eq_ok.2 ⟨memWrite_eq (s := { s with sel := x, cur := c, fb := m }) hin b, rfl⟩, rfl⟩
  | wrcell off ch attr =>
    obtain ⟨u, v, hu, -⟩ := conclude_eq_next.1 h
    obtain ⟨he, hl, -⟩ := writeCell_cases (noResponse_eq_ok.1 hu).1
    refine ⟨(·.putCell (s.params.readOffset off) ch attr), none, fun x c m => conclude_eq_next.2 ?_⟩
    exact ⟨_, _, noResponse_eq_ok.2 ⟨writeCell_eq he hl ch attr _, rfl⟩, rfl⟩
  | wrchar col row ch attr =>
    by_cases hn : ch = s.params.chNewline
    · refine ⟨id, some (newlineOffset (offsetOf (s.params.readCoord col) (s.params.readCoord row))),
        fun x c m => conclude_eq_next.2 ?_⟩
      exact ⟨_, _, (writeCharacter_eq ..).trans (if_pos hn), rfl⟩
    · refine ⟨(·.putCell (offsetOf (s.params.readCoord col) (s.params.readCoord row)) ch attr),
        some (offsetOf (s.params.readCoord col) (s.params.readCoord row) + 2), fun x c m => conclude_eq_next.2 ?_⟩
      exact ⟨_, _, (writeCharacter_eq ..).trans (if_neg hn), rfl⟩
  | fill ch attr => exact ⟨(·.fillCells ch attr (rows * cols)), none, fun _ _ _ => rfl⟩

/-- A command that answers a byte completes where there is one to answer (R91, R95). -/
theorem respondByte_eq_ok {s u : State} {x : Except Stop Byte} {v : Option U32} :
    respondByte s x = .ok (u, v) ↔ ∃ b, x = .ok b ∧ u = s ∧ v = some (byteResponse b) := by
  cases x with
  | error e => simp
  | ok b => simp [eq_comm]

/-! ## Port accesses read nothing of FB (R80 to R83) -/

/-- A byte write to a port does the same over any framebuffer. -/
theorem portWrite8_setFb {p : U16} {v : Byte} {s t : State} (h : portWrite8 p v s = .ok t) (m : Memory) :
    portWrite8 p v { s with fb := m } = .ok { t with fb := m } := by
  rcases portWrite8_cases h with ⟨rfl, rfl⟩ | ⟨hp, rfl, hd⟩
  · exact portWrite8_selPort v { s with fb := m }
  · rcases dataWrite_cases hd with ⟨hs, rfl⟩ | ⟨hs, hne, rfl⟩
    · simp [portWrite8, dataWrite, hp, hs]
    · simp [portWrite8, dataWrite, hp, hs, hne]

/-- So does selecting a register and writing it. -/
theorem selectWrite_setFb {idx v : Byte} {s t : State} (h : selectWrite idx v s = .ok t) (m : Memory) :
    selectWrite idx v { s with fb := m } = .ok { t with fb := m } := by
  rw [selectWrite_eq] at h ⊢
  exact portWrite8_setFb h m

/-! ## Dependence of a command on FB and on SEL -/

/-- A command other than MEMRDB that completes does so over any framebuffer, with the same SEL, CUR and response. -/
theorem exec_setFb {i : Instr} {s t : State} (hi : ∀ addr, i ≠ .memrdb addr) (h : exec i s = .next t) (m : Memory) :
    ∃ m', exec i { s with fb := m } = .next { t with fb := m' } := by
  cases i with
  | iowrw _ _ | iordw _ => exact absurd h (stopWith_ne_next _ _ _ _)
  | memrdb addr => exact absurd rfl (hi addr)
  | offset _ _ | rowof _ | colof _ | memwrb _ _ | wrcell _ _ _ | wrchar _ _ _ _ | fill _ _ =>
    obtain ⟨F, v, rfl, hF⟩ := exec_of_paramsOnly h trivial
    exact ⟨F m, hF s.sel s.cur m⟩
  | iowrb port v =>
    obtain ⟨u, r, hu, rfl⟩ := conclude_eq_next.1 h
    obtain ⟨hw, hr⟩ := noResponse_eq_ok.1 hu
    exact ⟨m, conclude_eq_next.2 ⟨_, r, noResponse_eq_ok.2 ⟨portWrite8_setFb hw m, hr⟩, rfl⟩⟩
  | iordb port =>
    obtain ⟨u, r, hu, rfl⟩ := conclude_eq_next.1 h
    obtain ⟨b, hb, rfl, hr⟩ := respondByte_eq_ok.1 hu
    exact ⟨m, conclude_eq_next.2 ⟨_, r, respondByte_eq_ok.2 ⟨b, hb, rfl, hr⟩, rfl⟩⟩
  | getcur =>
    obtain ⟨u, r, hu, rfl⟩ := conclude_eq_next.1 h
    obtain ⟨lo, hi, hlo, hhi, rfl, hr⟩ := getCursor_eq_ok.1 hu
    exact ⟨m, conclude_eq_next.2 ⟨_, r, getCursor_eq_ok.2 ⟨lo, hi, hlo, hhi, rfl, hr⟩, rfl⟩⟩
  | setcur off =>
    obtain ⟨u, r, hu, rfl⟩ := conclude_eq_next.1 h
    obtain ⟨hw, hr⟩ := noResponse_eq_ok.1 hu
    obtain ⟨t, hhi, hlo⟩ := setCursor_eq_ok.1 hw
    have hset := setCursor_eq_ok.2 ⟨_, selectWrite_setFb hhi m, selectWrite_setFb hlo m⟩
    exact ⟨m, conclude_eq_next.2 ⟨_, r, noResponse_eq_ok.2 ⟨hset, hr⟩, rfl⟩⟩

/-- GETCUR in closed form (R121). -/
theorem exec_getcur_eq {s : State} (h : s.params.WellFormed) :
    exec .getcur s = .next { s with
      sel := some s.params.curHiIdx, response := some (cursorOffset (highByte s.cur) (lowByte s.cur)) } :=
  conclude_eq_next.2 ⟨_, _, getCursor_eq h, rfl⟩

/-- SETCUR in closed form (R122). -/
theorem exec_setcur_eq {s : State} (h : s.params.WellFormed) (off : U32) :
    exec (.setcur off) s = .next { s with
      cur := cursorValue s.params (s.params.readOffset off), sel := some s.params.curLoIdx, response := none } :=
  conclude_eq_next.2 ⟨_, _, noResponse_eq_ok.2 ⟨setCursor_eq h _, rfl⟩, rfl⟩

/-- A command other than IOWRB and IORDB that completes does so with any selector, with the same CUR, FB and response: GETCUR and
SETCUR select for themselves (R123). -/
theorem exec_setSel {i : Instr} {s t : State} (hp : s.params.WellFormed) (hw : ∀ port v, i ≠ .iowrb port v)
    (hr : ∀ port, i ≠ .iordb port) (h : exec i s = .next t) (x : Option Byte) :
    ∃ y, exec i { s with sel := x } = .next { t with sel := y } := by
  cases i with
  | iowrw _ _ | iordw _ => exact absurd h (stopWith_ne_next _ _ _ _)
  | iowrb port v => exact absurd rfl (hw port v)
  | iordb port => exact absurd rfl (hr port)
  | offset _ _ | rowof _ | colof _ | memwrb _ _ | wrcell _ _ _ | wrchar _ _ _ _ | fill _ _ =>
    obtain ⟨F, v, rfl, hF⟩ := exec_of_paramsOnly h trivial
    exact ⟨x, hF x s.cur s.fb⟩
  | memrdb addr =>
    obtain ⟨u, r, hu, rfl⟩ := conclude_eq_next.1 h
    obtain ⟨b, hb, rfl, hr⟩ := respondByte_eq_ok.1 hu
    exact ⟨x, conclude_eq_next.2 ⟨_, r, respondByte_eq_ok.2 ⟨b, hb, rfl, hr⟩, rfl⟩⟩
  | getcur =>
    obtain rfl := Host.Outcome.next.inj (h.symm.trans (exec_getcur_eq hp))
    exact ⟨_, exec_getcur_eq (s := { s with sel := x }) hp⟩
  | setcur off =>
    obtain rfl := Host.Outcome.next.inj (h.symm.trans (exec_setcur_eq hp off))
    exact ⟨_, exec_setcur_eq (s := { s with sel := x }) hp off⟩

/-! ## The statements -/

/-- Settles O35, by the frame of a completed command. -/
theorem commandsLeaveRecordsAndHostAlone : Obligations.CommandsLeaveRecordsAndHostAlone := by
  intro i s t h
  rw [exec_frame h]
  exact ⟨rfl, rfl, rfl, rfl, rfl, rfl⟩

/-- Settles O36: in each case of what a completed command writes, the registers it does not write are as they were. -/
theorem onlyTheseCommandsChangeEachRegister : Obligations.OnlyTheseCommandsChangeEachRegister := by
  intro i s t h
  rcases exec_next_writes h with
    ht | ⟨port, v, rfl, ⟨hp, ht⟩ | ⟨hp, ht⟩⟩ | ⟨rfl, ht⟩ | ⟨off, rfl, ht⟩ | ⟨hi, ht⟩ <;> rw [ht]
  · exact ⟨absurd rfl, absurd rfl, absurd rfl⟩
  · exact ⟨absurd rfl, absurd rfl, fun _ => .inl ⟨port, v, rfl, hp⟩⟩
  · exact ⟨fun _ => .inr ⟨port, v, rfl, hp⟩, absurd rfl, absurd rfl⟩
  · exact ⟨absurd rfl, absurd rfl, fun _ => .inr (.inl rfl)⟩
  · exact ⟨fun _ => .inl ⟨off, rfl⟩, absurd rfl, fun _ => .inr (.inr ⟨off, rfl⟩)⟩
  · exact ⟨absurd rfl, fun _ => hi, absurd rfl⟩

/-- Settles O40: a completed step leaves both records, and a stop appends to one of them or leaves the state as it was. -/
theorem recordsAreNeverCleared : Obligations.RecordsAreNeverCleared := by
  refine ⟨⟨rfl, rfl⟩, fun s t => step_records, fun s f h => ?_, fun s t r h hl => ?_, fun s hs hf => ?_⟩
  · rcases step_fault_left h with hl | ⟨rest, k, r, w, o, hl⟩ <;> rw [hl]
    · exact ⟨List.prefix_rfl, List.prefix_rfl⟩
    · exact ⟨List.prefix_append .., List.prefix_rfl⟩
  · rcases step_refused_left h with hs | ⟨rest, k, x, hs⟩ <;> obtain rfl := Option.some.inj (hl.symm.trans hs)
    · exact ⟨List.prefix_rfl, List.prefix_rfl⟩
    · exact ⟨List.prefix_rfl, List.prefix_append ..⟩
  · obtain ⟨-, hfaults, hrefusals⟩ := hf
    exact hs.elim (· hfaults) (· hrefusals)

/-- Settles O47: only MEMRDB reads a byte of FB. -/
theorem framebufferIsReadOnlyByMemrdb : Obligations.FramebufferIsReadOnlyByMemrdb := by
  intro i s t m hi h
  obtain ⟨m', hm⟩ := exec_setFb hi h m
  exact ⟨_, hm, rfl, rfl, rfl⟩

/-- Settles O48: SETCUR and GETCUR select before they access the data port, and no other command but IOWRB and IORDB looks at
SEL. -/
theorem selectorMattersOnlyToPortCommands : Obligations.SelectorMattersOnlyToPortCommands := by
  intro i s t x hp hw hr h
  obtain ⟨y, hy⟩ := exec_setSel hp hw hr h x
  exact ⟨_, hy, rfl, rfl, rfl⟩

/-- Settles O23, from GETCUR in closed form: the two bytes of CUR together are CUR. -/
theorem getcurAnswersTwiceTheCursor : Obligations.GetcurAnswersTwiceTheCursor :=
  fun s h => ⟨_, cursorOffset_toNat s.cur, exec_getcur_eq h⟩

/-- Settles O24, from SETCUR in closed form: the register holds the whole of what SETCUR stores. -/
theorem setcurStoresHalfTheOffset : Obligations.SetcurStoresHalfTheOffset :=
  fun _ off h => ⟨_, cursorValue_toNat h _, exec_setcur_eq h off⟩

end Machine

end Sys2Proof

/-! # Memory: how a step takes the host's next item (20_memory.md)

A command word that decodes is the command itself, on the state without the item (R47, R49); a wide memory access is refused
whatever its address (R44, R89). -/

namespace Sys2Proof.Machine

/-- A machine with both records empty has not stopped (R184). -/
theorem State.stopped_eq_false {s : State} (hf : s.faults = []) (hr : s.refusals = []) : s.stopped = false := by
  simp [State.stopped, hf, hr]

/-! ## Naming a response (R66) -/

/-- Where the host asks for no name, the outcome of the command is as it is. -/
@[simp] theorem nameResponse_none (x : Result) : nameResponse none x = x := by
  cases x <;> rfl

/-- Where the host asks for a name and the command delivers a response, the response is bound to the name. -/
theorem nameResponse_next_of_response {t : State} {v : U32} (h : t.response = some v) (n : RespName) :
    nameResponse (some n) (.next t) = .next { t with names := bindName t.names n v } := by
  simp only [nameResponse, h]

/-! ## The wide memory access (R44, R89) -/

/-- The step that takes a wide memory access of the host refuses it, whatever the address and the width. -/
theorem step_wideMem_host {s : State} {rest : List HostItem} {addr : U32} {more : Nat} {into : Option RespName}
    (hs : s.stopped = false)
    (hp : s.pending = .issue { agent := .host, request := .wideMem addr more, into := into } :: rest) :
    step s = refuse .wideMemoryAccess { s with pending := rest } :=
  step_of_item hs hp

/-! ## The statements -/

/-- Settles O6: a word with no response names is assembled as it stands, so the step runs the command it decodes to, and a name
asked for is bound to the response and to no other. -/
theorem stepRunsTheDecodedCommand : Obligations.StepRunsTheDecodedCommand := by
  intro s rest w i into hf hr hp hd
  have hstep : step s = nameResponse into (exec i { s with pending := rest }) :=
    step_hostWord (State.stopped_eq_false hf hr) hp (assemble_nil ..) hd
  refine ⟨hstep, ?_, ?_⟩
  · rintro rfl
    rw [hstep, nameResponse_none]
  · rintro n t v rfl hexec hresp
    refine ⟨?_, lookupName_bindName_same .., fun m hm => lookupName_bindName_ne _ v hm⟩
    rw [hstep, hexec, nameResponse_next_of_response hresp]

/-- Settles O10: the refusal is recorded in a mark that was empty. -/
theorem wideMemoryAccessIsRefused : Obligations.WideMemoryAccessIsRefused := by
  intro s rest addr more into hf hr hp
  rw [step_wideMem_host (State.stopped_eq_false hf hr) hp]
  simp [refuse, State.recordRefusal, hr]

end Sys2Proof.Machine

/-! # Encoding: the command word and its operands (30_encoding.md)

Decoding and encoding are inverse to each other (`decode_encode`, `encode_of_decode`); a word's fields are its bit ranges
(`fieldOp_toNat` and its fellows), and from these come the statements about the bits of a word. -/

namespace Sys2Proof

/-! ## Decoding and encoding (R60 to R65) -/

/-- Of every command: its word selects its row and leaves the row's reserved fields zero (R62, R63). -/
theorem encode_selects_own_row (i : Instr) : Laws.WordOf.Statement i :=
  match i with
  | .iowrb port val8 => Laws.WordOf.iowrb port val8
  | .iordb port => Laws.WordOf.iordb port
  | .iowrw port val16 => Laws.WordOf.iowrw port val16
  | .iordw port => Laws.WordOf.iordw port
  | .memwrb addr val8 => Laws.WordOf.memwrb addr val8
  | .memrdb addr => Laws.WordOf.memrdb addr
  | .offset col row => Laws.WordOf.offset col row
  | .rowof off => Laws.WordOf.rowof off
  | .colof off => Laws.WordOf.colof off
  | .getcur => Laws.WordOf.getcur
  | .setcur off => Laws.WordOf.setcur off
  | .wrcell off ch attr => Laws.WordOf.wrcell off ch attr
  | .wrchar col row ch attr => Laws.WordOf.wrchar col row ch attr
  | .fill ch attr => Laws.WordOf.fill ch attr

/-- The operands read from a command's word are the command's own (R61). -/
theorem readOperands_encode (i : Instr) : readOperands (instrOpcode i) (encode i) = i := by
  cases i <;> simp [encode, instrOpcode, readOperands]

/-- The decoder reads a command's word as the command. -/
theorem decode_encode (i : Instr) : decode (encode i) = .ok i := by
  obtain ⟨hop, hres⟩ := encode_selects_own_row i
  exact decode_eq_ok.2 ⟨instrOpcode i, hop, hres, readOperands_encode i⟩

/-- A word is the packing of five values exactly where they are its fields (R60). -/
theorem packWord_eq_iff {op : Byte} {a b : U32} {c d : Byte} {w : CommandWord} :
    packWord op a b c d = w ↔ op = fieldOp w ∧ a = fieldA w ∧ b = fieldB w ∧ c = fieldC w ∧ d = fieldD w := by
  constructor
  · rintro rfl
    simp
  · rintro ⟨rfl, rfl, rfl, rfl, rfl⟩
    exact packWord_fields w

/-- Where a row's reserved fields are zero, encoding the operands read loses no bit of the word (R61, R63). -/
theorem encode_readOperands {o : Opcode} {w : CommandWord} (hop : opcodeNumber o = fieldOp w)
    (hres : reservedClear o w = true) : encode (readOperands o w) = w := by
  cases o <;> simp only [reservedClear, Bool.and_eq_true, beq_iff_eq] at hres <;>
    simp [encode, instrOpcode, readOperands, packWord_eq_iff, hop, hres, wideHalf_lowHalf]

/-- A word that decodes is the word of the command it decodes to. -/
theorem encode_of_decode {w : CommandWord} {i : Instr} (h : decode w = .ok i) : encode i = w := by
  obtain ⟨o, ho, hres, rfl⟩ := decode_eq_ok.1 h
  exact encode_readOperands (opcodeNumber_of_opcodeOf ho) hres

/-- The word of a command is read as it, and is its word. -/
theorem decode_and_encode {w : CommandWord} {i : Instr} (h : encode i = w) : decode w = .ok i ∧ encode i = w :=
  ⟨h ▸ decode_encode i, h⟩

/-! ## The fields as bit ranges (R60, R61) -/

/-- Bits cut out of a word, as a number, are its bit range (R7). -/
theorem toNat_extractLsb'_eq_bitsOf (w : CommandWord) (hi lo : Nat) :
    (w.extractLsb' lo (hi + 1 - lo)).toNat = bitsOf w hi lo := by
  rw [BitVec.extractLsb'_toNat, Nat.shiftRight_eq_div_pow]
  rfl

theorem fieldOp_toNat (w : CommandWord) : (fieldOp w).toNat = bitsOf w 87 80 := toNat_extractLsb'_eq_bitsOf w 87 80
theorem fieldA_toNat (w : CommandWord) : (fieldA w).toNat = bitsOf w 79 48 := toNat_extractLsb'_eq_bitsOf w 79 48
theorem fieldB_toNat (w : CommandWord) : (fieldB w).toNat = bitsOf w 47 16 := toNat_extractLsb'_eq_bitsOf w 47 16
theorem fieldC_toNat (w : CommandWord) : (fieldC w).toNat = bitsOf w 15 8 := toNat_extractLsb'_eq_bitsOf w 15 8
theorem fieldD_toNat (w : CommandWord) : (fieldD w).toNat = bitsOf w 7 0 := toNat_extractLsb'_eq_bitsOf w 7 0

theorem lowHalf_toNat (v : U32) : (lowHalf v).toNat = v.toNat % 65536 := by simp [lowHalf]

theorem highHalf_toNat (v : U32) : (highHalf v).toNat = v.toNat / 65536 := by
  have := v.isLt
  simp [highHalf, Nat.shiftRight_eq_div_pow]
  omega

theorem lowHalf_fieldA_toNat (w : CommandWord) : (lowHalf (fieldA w)).toNat = bitsOf w 63 48 := by
  simp only [lowHalf_toNat, fieldA_toNat, bitsOf]
  omega

theorem lowHalf_fieldB_toNat (w : CommandWord) : (lowHalf (fieldB w)).toNat = bitsOf w 31 16 := by
  simp only [lowHalf_toNat, fieldB_toNat, bitsOf]
  omega

theorem highHalf_fieldA_toNat (w : CommandWord) : (highHalf (fieldA w)).toNat = bitsOf w 79 64 := by
  simp only [highHalf_toNat, fieldA_toNat, bitsOf]
  omega

theorem highHalf_fieldB_toNat (w : CommandWord) : (highHalf (fieldB w)).toNat = bitsOf w 47 32 := by
  simp only [highHalf_toNat, fieldB_toNat, bitsOf]
  omega

/-- What the operand table says of a word that stands for the command: OP is the row's number and each operand is its bit range
(R61, R62). -/
def Instr.IsSpelledBy (w : CommandWord) : Instr → Prop
  | .iowrb port val8 => bitsOf w 87 80 = 0x01 ∧ port.toNat = bitsOf w 63 48 ∧ val8.toNat = bitsOf w 15 8
  | .iordb port => bitsOf w 87 80 = 0x02 ∧ port.toNat = bitsOf w 63 48
  | .iowrw port val16 => bitsOf w 87 80 = 0x03 ∧ port.toNat = bitsOf w 63 48 ∧ val16.toNat = bitsOf w 31 16
  | .iordw port => bitsOf w 87 80 = 0x04 ∧ port.toNat = bitsOf w 63 48
  | .memwrb addr val8 => bitsOf w 87 80 = 0x05 ∧ addr.toNat = bitsOf w 79 48 ∧ val8.toNat = bitsOf w 15 8
  | .memrdb addr => bitsOf w 87 80 = 0x06 ∧ addr.toNat = bitsOf w 79 48
  | .offset col row => bitsOf w 87 80 = 0x10 ∧ col.toNat = bitsOf w 79 48 ∧ row.toNat = bitsOf w 47 16
  | .rowof off => bitsOf w 87 80 = 0x11 ∧ off.toNat = bitsOf w 79 48
  | .colof off => bitsOf w 87 80 = 0x12 ∧ off.toNat = bitsOf w 79 48
  | .getcur => bitsOf w 87 80 = 0x20
  | .setcur off => bitsOf w 87 80 = 0x21 ∧ off.toNat = bitsOf w 79 48
  | .wrcell off ch attr =>
    bitsOf w 87 80 = 0x30 ∧ off.toNat = bitsOf w 79 48 ∧ ch.toNat = bitsOf w 15 8 ∧ attr.toNat = bitsOf w 7 0
  | .wrchar col row ch attr =>
    bitsOf w 87 80 = 0x31 ∧ col.toNat = bitsOf w 79 48 ∧ row.toNat = bitsOf w 47 16 ∧ ch.toNat = bitsOf w 15 8 ∧
      attr.toNat = bitsOf w 7 0
  | .fill ch attr => bitsOf w 87 80 = 0x32 ∧ ch.toNat = bitsOf w 15 8 ∧ attr.toNat = bitsOf w 7 0

/-- A word that decodes spells its command: it is the packing of the command's number and operands, and each field is a bit range
of the word. -/
theorem isSpelledBy_of_decode {w : CommandWord} {i : Instr} (h : decode w = .ok i) : i.IsSpelledBy w := by
  rw [← encode_of_decode h]
  cases i <;>
    simp [Instr.IsSpelledBy, ← fieldOp_toNat, ← fieldA_toNat, ← fieldB_toNat, ← fieldC_toNat, ← fieldD_toNat,
      ← lowHalf_fieldA_toNat, ← lowHalf_fieldB_toNat, encode, instrOpcode, opcodeNumber]

/-! ## The words that are no command (R63, R64) -/

/-- An OP selects a row exactly where it is one of the OP values of R62. -/
theorem opcodeOf_isSome_iff (op : Byte) : (opcodeOf op).isSome ↔ op.toNat ∈ definedOps := by
  revert op
  decide

/-- An OP outside R62 selects no row (R64). -/
theorem opcodeOf_eq_none {w : CommandWord} (h : bitsOf w 87 80 ∉ definedOps) : opcodeOf (fieldOp w) = none := by
  rw [← fieldOp_toNat, ← opcodeOf_isSome_iff] at h
  simpa using h

/-- An OP of R62 selects the row whose number it is. -/
theorem exists_opcodeOf_eq {w : CommandWord} (h : bitsOf w 87 80 ∈ definedOps) :
    ∃ o, opcodeOf (fieldOp w) = some o ∧ bitsOf w 87 80 = (opcodeNumber o).toNat := by
  rw [← fieldOp_toNat, ← opcodeOf_isSome_iff, Option.isSome_iff_exists] at h
  obtain ⟨o, ho⟩ := h
  exact ⟨o, ho, by rw [← fieldOp_toNat, opcodeNumber_of_opcodeOf ho]⟩

/-- The reserved fields of a row are zero exactly where its reserved bit ranges are (R63). -/
theorem reservedClear_iff (o : Opcode) (w : CommandWord) :
    reservedClear o w = true ↔ ∀ r ∈ reservedRanges (opcodeNumber o).toNat, bitsOf w r.1 r.2 = 0 := by
  cases o <;>
    simp [reservedClear, reservedRanges, opcodeNumber, ← BitVec.toNat_inj, fieldA_toNat, fieldB_toNat, fieldC_toNat,
      fieldD_toNat, highHalf_fieldA_toNat, highHalf_fieldB_toNat, and_assoc]

/-- A word whose OP is outside R62 is rejected for its OP (R64). -/
theorem decode_of_reservedOp {w : CommandWord} (h : bitsOf w 87 80 ∉ definedOps) : decode w = .error .reservedOpcode := by
  simp [decode, opcodeOf_eq_none h]

/-- A word with an OP of R62 is rejected for a reserved field that is not zero (R63). -/
theorem decode_of_reservedField {w : CommandWord} (hop : bitsOf w 87 80 ∈ definedOps)
    (hr : ∃ r ∈ reservedRanges (bitsOf w 87 80), bitsOf w r.1 r.2 ≠ 0) : decode w = .error .reservedField := by
  obtain ⟨o, ho, hnum⟩ := exists_opcodeOf_eq hop
  obtain ⟨r, hmem, hne⟩ := hr
  have hclear : ¬ reservedClear o w = true := fun h => hne ((reservedClear_iff o w).1 h r (hnum ▸ hmem))
  simp [decode, ho, hclear]

/-- Every other word decodes (R65). -/
theorem decode_of_reservedClear {w : CommandWord} (hop : bitsOf w 87 80 ∈ definedOps)
    (hr : ∀ r ∈ reservedRanges (bitsOf w 87 80), bitsOf w r.1 r.2 = 0) : ∃ i, decode w = .ok i := by
  obtain ⟨o, ho, hnum⟩ := exists_opcodeOf_eq hop
  exact ⟨readOperands o w, decode_eq_ok.2 ⟨o, ho, (reservedClear_iff o w).2 (hnum ▸ hr), rfl⟩⟩

/-! ## The statements about the command word -/

/-- Settles O1: the word selects the command's row, its reserved fields are zero, and its operands are the command's. -/
theorem decodingAnEncodedCommandGivesItBack : Obligations.DecodingAnEncodedCommandGivesItBack := decode_encode

/-- Settles O2: a word is the packing of its fields, and those that hold no operand are zero. -/
theorem encodingADecodedWordGivesItBack : Obligations.EncodingADecodedWordGivesItBack := fun _ _ => encode_of_decode

/-- Settles O3: the rows of R62 and their reserved fields are the OP values and the bit ranges listed. -/
theorem decoderRejectsExactlyTheReservedWords : Obligations.DecoderRejectsExactlyTheReservedWords :=
  fun _ => ⟨decode_of_reservedOp, decode_of_reservedField, decode_of_reservedClear⟩

/-- Settles O4, a clause per command of what the operand table says. -/
theorem decodedOperandsAreTheirBitRanges : Obligations.DecodedOperandsAreTheirBitRanges := fun _ =>
  ⟨fun _ _ => isSpelledBy_of_decode, fun _ => isSpelledBy_of_decode, fun _ _ => isSpelledBy_of_decode,
    fun _ => isSpelledBy_of_decode, fun _ _ => isSpelledBy_of_decode, fun _ => isSpelledBy_of_decode,
    fun _ _ => isSpelledBy_of_decode, fun _ => isSpelledBy_of_decode, fun _ => isSpelledBy_of_decode,
    isSpelledBy_of_decode, fun _ => isSpelledBy_of_decode, fun _ _ _ => isSpelledBy_of_decode,
    fun _ _ _ _ => isSpelledBy_of_decode, fun _ _ => isSpelledBy_of_decode⟩

/-- Settles O5: each word is the command's encoding, so it is read as the command. -/
theorem workedEncodingsAreRead : Obligations.WorkedEncodingsAreRead :=
  ⟨decode_and_encode (by decide), decode_and_encode (by decide), decode_and_encode (by decide),
    decode_and_encode (by decide), decode_and_encode (by decide), decode_and_encode (by decide),
    decode_and_encode (by decide), decode_and_encode (by decide), decode_and_encode (by decide)⟩

end Sys2Proof

namespace Sys2Proof.Machine

/-! ## Response names and reserved words (R63, R64, R66) -/

@[simp] theorem setField_a_packWord (op : Byte) (a b v : U32) (c d free : Byte) :
    setField (packWord op a b c d) .a v free = packWord op v b c d := by
  simp [setField]

@[simp] theorem setField_b_packWord (op : Byte) (a b v : U32) (c d free : Byte) :
    setField (packWord op a b c d) .b v free = packWord op a v c d := by
  simp [setField]

@[simp] theorem setField_c_packWord (op : Byte) (a b v : U32) (c d free : Byte) :
    setField (packWord op a b c d) .c v free = packWord op a b (responseByte v free) d := by
  simp [setField]

@[simp] theorem setField_d_packWord (op : Byte) (a b v : U32) (c d free : Byte) :
    setField (packWord op a b c d) .d v free = packWord op a b c (responseByte v free) := by
  simp [setField]

/-- The step that takes a command of the host with one response name runs the command that the word decodes to once the response
is in the operand's field (R66). -/
theorem step_of_oneName {s : State} {rest : List HostItem} {w : CommandWord} {f : OperandField} {n : RespName} {v : U32}
    {i : Instr} (hs : s.stopped = false)
    (hp : s.pending = .issue { agent := .host, request := .command w [(f, n)], into := none } :: rest)
    (hn : lookupName s.names n = some v) (hd : decode (setField w f v (Config.freeByte s.drawn)) = .ok i) :
    step s = exec i { s with pending := rest, drawn := s.drawn + drawsFor f v } :=
  (step_assembled hs hp (assemble_cons_bound hn ..) hd).trans (nameResponse_none _)

/-- The step that takes a word that is no command faults for what the decoder found, whoever issues it (R63, R64). -/
theorem step_of_decode_error {s : State} {rest : List HostItem} {agent : Agent} {w : CommandWord} {into : Option RespName}
    (hs : s.stopped = false)
    (hp : s.pending = .issue { agent := agent, request := .command w [], into := into } :: rest) :
    (decode w = .error .reservedOpcode → step s = raiseFault .reservedOpcode w none { s with pending := rest }) ∧
    (decode w = .error .reservedField → step s = raiseFault .reservedField w none { s with pending := rest }) := by
  rw [step_of_item hs hp]
  constructor <;>
  · intro hd
    simp [takeItem, issueRequest, issueWord, hd, nameResponse_raiseFault]

/-- Settles O7: the response fills A or B whole and C or D where it fits, else a free byte does; an unknown name gives no word. -/
theorem responseNamesBecomeOperands : Obligations.ResponseNamesBecomeOperands := by
  intro s rest op a b v c d n f w hf hr hp
  have hs := State.stopped_eq_false hf hr
  refine ⟨fun hn hw i hd => ?_, fun hn hv hw i hd => ?_, fun hn => ?_⟩
  · have hset : setField (packWord op a b c d) f v (Config.freeByte s.drawn) = w ∧ drawsFor f v = 0 := by
      rcases hw with ⟨rfl, rfl⟩ | ⟨rfl, rfl⟩ | ⟨hv, rfl, rfl⟩ | ⟨hv, rfl, rfl⟩
      · simp [drawsFor]
      · simp [drawsFor]
      · simp [drawsFor, responseByte_of_lt, hv]
      · simp [drawsFor, responseByte_of_lt, hv]
    obtain ⟨hword, hdraws⟩ := hset
    rw [step_of_oneName hs hp hn (hword ▸ hd), hdraws]
    rfl
  · have hset : setField (packWord op a b c d) f v (Config.freeByte s.drawn) = w ∧ drawsFor f v = 1 := by
      rcases hw with ⟨rfl, rfl⟩ | ⟨rfl, rfl⟩
      · simp [drawsFor, responseByte_of_ge, hv]
      · simp [drawsFor, responseByte_of_ge, hv]
    obtain ⟨hword, hdraws⟩ := hset
    rw [step_of_oneName hs hp hn (hword ▸ hd), hdraws]
  · exact step_of_unbound hs hp rfl (assemble_cons_unbound hn ..)

/-- Settles O8: the decoder rejects the word for the reason the fault records, in a record that was empty. -/
theorem reservedWordsFault : Obligations.ReservedWordsFault := by
  intro s rest agent w into hf hr hp
  obtain ⟨hopcode, hfield⟩ := step_of_decode_error (State.stopped_eq_false hf hr) hp
  refine ⟨fun h => ?_, fun hop h => ?_⟩
  · rw [hopcode (decode_of_reservedOp h)]
    simp [raiseFault, State.recordFault, hf]
  · rw [hfield (decode_of_reservedField hop h)]
    simp [raiseFault, State.recordFault, hf]

/-! ## Commands given one after the other (R67) -/

/-- A command that completes hands its state to the rest. -/
theorem execAll_cons {i : Instr} {s t : State} (h : exec i s = .next t) (rest : List Instr) :
    execAll (i :: rest) s = execAll rest t := by
  simp only [execAll, h]

/-- A list that completes hands its state to the list after it. -/
theorem execAll_append {l : List Instr} {s t : State} (h : execAll l s = .next t) (l' : List Instr) :
    execAll (l ++ l') s = execAll l' t := by
  induction l generalizing s with
  | nil => rw [List.nil_append, Host.Outcome.next.inj h]
  | cons i l ih =>
    simp only [execAll] at h
    cases hi : exec i s with
    | next u => rw [List.cons_append, execAll_cons hi, ih (by simpa only [hi] using h)]
    | fault f => simp [hi] at h
    | refused r => simp [hi] at h

/-! ## The cursor commands as port commands (R121, R122, R124) -/

/-- IOWRB on the selector port selects the register (R80). -/
theorem exec_iowrb_selPort {s : State} (h : s.params.WellFormed) (v : Byte) :
    exec (.iowrb s.params.selPort v) s = .next { s with sel := some v, response := none } := by
  refine conclude_eq_next.2 ⟨{ s with sel := some v }, none, noResponse_eq_ok.2 ⟨?_, rfl⟩, rfl⟩
  rw [Params.readPort_selPort h, portWrite8_selPort]

/-- IOWRB on the data port is `DataWrite` (R80, R81). -/
theorem exec_iowrb_dataPort {s t : State} {v : Byte} (h : s.params.WellFormed) (hw : dataWrite v s = .ok t) :
    exec (.iowrb s.params.dataPort v) s = .next { t with response := none } := by
  refine conclude_eq_next.2 ⟨t, none, noResponse_eq_ok.2 ⟨?_, rfl⟩, rfl⟩
  rw [Params.readPort_dataPort h, portWrite8, if_neg h.1.symm, if_pos rfl, hw]

/-- IORDB on the data port is `DataRead` (R82, R83). -/
theorem exec_iordb_dataPort {s : State} {b : Byte} (h : s.params.WellFormed) (hr : dataRead s = .ok b) :
    exec (.iordb s.params.dataPort) s = .next { s with response := some (byteResponse b) } := by
  refine conclude_eq_next.2 ⟨s, _, respondByte_eq_ok.2 ⟨b, ?_, rfl, rfl⟩, rfl⟩
  rw [Params.readPort_dataPort h, portRead8, if_pos rfl, hr]

/-- Selecting a register and reading the data port, issued as two commands (R204). -/
theorem execAll_select_read {s : State} {idx b : Byte} (h : s.params.WellFormed)
    (hr : dataRead { s with sel := some idx, response := none } = .ok b) :
    execAll [.iowrb s.params.selPort idx, .iordb s.params.dataPort] s =
      .next { s with sel := some idx, response := some (byteResponse b) } := by
  rw [execAll_cons (exec_iowrb_selPort h idx),
    execAll_cons (exec_iordb_dataPort (s := { s with sel := some idx, response := none }) h hr), execAll]

/-- Selecting a register and writing the data port, issued as two commands (R204). -/
theorem execAll_select_write {s t : State} {idx v : Byte} (h : s.params.WellFormed)
    (hw : dataWrite v { s with sel := some idx, response := none } = .ok t) :
    execAll [.iowrb s.params.selPort idx, .iowrb s.params.dataPort v] s = .next { t with response := none } := by
  rw [execAll_cons (exec_iowrb_selPort h idx),
    execAll_cons (exec_iowrb_dataPort (s := { s with sel := some idx, response := none }) h hw), execAll]

/-- The data port reads the low byte of CUR where SEL names it (R83). -/
theorem dataRead_low {s : State} (h : s.params.WellFormed) (hs : s.sel = some s.params.curLoIdx) :
    dataRead s = .ok (lowByte s.cur) := by
  simp [dataRead, hs, h.2.1.symm]

/-- The data port reads the high byte of CUR where SEL names it (R83). -/
theorem dataRead_high {s : State} (hs : s.sel = some s.params.curHiIdx) : dataRead s = .ok (highByte s.cur) := by
  simp [dataRead, hs]

/-- The data port writes the low byte of CUR where SEL names it (R81). -/
theorem dataWrite_low {s : State} (h : s.params.WellFormed) (hs : s.sel = some s.params.curLoIdx) (v : Byte) :
    dataWrite v s = .ok { s with cur := s.params.keepCur (highByte s.cur ++ v) } := by
  simp [dataWrite, hs, h.2.1.symm]

/-- The data port writes the high byte of CUR where SEL names it (R81). -/
theorem dataWrite_high {s : State} (hs : s.sel = some s.params.curHiIdx) (v : Byte) :
    dataWrite v s = .ok { s with cur := s.params.keepCur (v ++ lowByte s.cur) } := by
  simp [dataWrite, hs]

/-- The pair of commands that writes the high byte of CUR (R122). -/
theorem execAll_write_high {s : State} (h : s.params.WellFormed) (v : Byte) :
    execAll [.iowrb s.params.selPort s.params.curHiIdx, .iowrb s.params.dataPort v] s =
      .next { s with
        sel := some s.params.curHiIdx, cur := s.params.keepCur (v ++ lowByte s.cur), response := none } :=
  execAll_select_write h
    (dataWrite_high (s := { s with sel := some s.params.curHiIdx, response := none }) rfl v)

/-- The pair of commands that writes the low byte of CUR (R122). -/
theorem execAll_write_low {s : State} (h : s.params.WellFormed) (v : Byte) :
    execAll [.iowrb s.params.selPort s.params.curLoIdx, .iowrb s.params.dataPort v] s =
      .next { s with
        sel := some s.params.curLoIdx, cur := s.params.keepCur (highByte s.cur ++ v), response := none } :=
  execAll_select_write h
    (dataWrite_low (s := { s with sel := some s.params.curLoIdx, response := none }) h rfl v)

/-- Writing the two bytes of a value the register can hold, the high one first, leaves the value in it (R122). -/
theorem keepCur_both_bytes {p : Params} (h : p.WellFormed) {v : U16} (hv : v.toNat < 2 ^ p.curWidth) (l : Byte) :
    p.keepCur (highByte (p.keepCur (highByte v ++ l)) ++ lowByte v) = v := by
  rw [keepCur_highByte_append h hv, highByte_append, highByte_append_lowByte, Params.keepCur_of_lt hv]

/-- GETCUR's response from the two byte responses, as R121 computes it. -/
theorem cursorOffset_eq_byteResponses (v : U16) :
    cursorOffset (highByte v) (lowByte v) = (byteResponse (highByte v) * 256 + byteResponse (lowByte v)) * 2 := by
  have hv := v.isLt
  refine BitVec.eq_of_toNat_eq ?_
  simp [cursorOffset_toNat, byteResponse, highByte_toNat, lowByte_toNat]
  omega

/-- SETCUR's four port writes, issued as commands, end where SETCUR ends (R122). -/
theorem execAll_setcur_series {s : State} (h : s.params.WellFormed) (off : U32) {hi lo : Byte}
    (hhi : hi = highByte (cursorValue s.params (s.params.readOffset off)))
    (hlo : lo = lowByte (cursorValue s.params (s.params.readOffset off))) :
    execAll [.iowrb s.params.selPort s.params.curHiIdx, .iowrb s.params.dataPort hi,
      .iowrb s.params.selPort s.params.curLoIdx, .iowrb s.params.dataPort lo] s = exec (.setcur off) s := by
  have hv : (cursorValue s.params (s.params.readOffset off)).toNat < 2 ^ s.params.curWidth := by
    rw [cursorValue_toNat h]
    exact Nat.mod_lt _ (Nat.two_pow_pos _)
  have hlow := execAll_write_low (s := { s with
    sel := some s.params.curHiIdx, cur := s.params.keepCur (hi ++ lowByte s.cur), response := none }) h lo
  refine ((execAll_append (execAll_write_high h hi) _).trans hlow).trans ?_
  rw [exec_setcur_eq h, hhi, hlo, keepCur_both_bytes h hv]

/-- Settles O26: each pair of port commands reads or writes one byte of CUR, and the two bytes together are CUR. -/
theorem cursorCommandsAreTheirPortSeries : Obligations.CursorCommandsAreTheirPortSeries := by
  intro s off v hi lo h hv
  refine ⟨⟨_, _, _, _, _, execAll_select_read h (dataRead_low h rfl),
    execAll_select_read (s := { s with sel := _, response := _ }) h (dataRead_high rfl), exec_getcur_eq h, rfl, rfl,
    congrArg some (cursorOffset_eq_byteResponses s.cur), rfl⟩, fun hhi hlo => ⟨_, ?_, exec_setcur_eq h off⟩⟩
  have hc := cursorValue_toNat h (s.params.readOffset off)
  rw [← hv] at hc
  rw [execAll_setcur_series h off, exec_setcur_eq h]
  · exact BitVec.eq_of_toNat_eq (by rw [hhi, highByte_toNat, hc])
  · exact BitVec.eq_of_toNat_eq (by rw [hlo, lowByte_toNat, hc])

/-! ## FILL as cell writes (R142) -/

/-- Numbering the cells of a grid row by row counts them all in order (R25). -/
theorem flatMap_range_rowMajor {α : Type} (f : Nat → α) (m n : Nat) :
    ((List.range m).flatMap fun r => (List.range n).map fun c => f (r * n + c)) = (List.range (m * n)).map f := by
  induction m with
  | zero => simp
  | succ m ih =>
    rw [List.range_succ, List.flatMap_append, ih, Nat.succ_mul, List.range_add, List.map_append, List.map_map]
    simp [Function.comp_def]

/-- The WRCELL command of cell number `k` (R25, R140). -/
def wrcellOf (ch attr : Byte) (k : Nat) : Instr := .wrcell (BitVec.ofNat 32 (2 * k)) ch attr

/-- WRCELL of a cell of the grid completes and writes the cell (R140). -/
theorem exec_wrcellOf {s : State} (h : s.params.WellFormed) (ch attr : Byte) {k : Nat} (hk : k < 2000) :
    exec (wrcellOf ch attr k) s =
      .next { s with fb := s.fb.putCell (cellOffset (k % cols) (k / cols)) ch attr, response := none } := by
  have hnum := cellOffset_of_number hk
  have hoff : BitVec.ofNat 32 (2 * k) = cellOffset (k % cols) (k / cols) :=
    BitVec.eq_of_toNat_eq (by rw [hnum, BitVec.toNat_ofNat]; omega)
  refine conclude_eq_next.2 ⟨s.putCell (cellOffset (k % cols) (k / cols)) ch attr, none,
    noResponse_eq_ok.2 ⟨?_, rfl⟩, rfl⟩
  rw [hoff, Params.readOffset_of_le h (by omega)]
  exact writeCell_eq (by omega) (by omega) ch attr s

/-- The WRCELL commands of the first cells of the grid write those cells, one after the other. -/
theorem execAll_wrcellOf {s : State} (h : s.params.WellFormed) (ch attr : Byte) {n : Nat} (hn : n < 2000) :
    execAll ((List.range (n + 1)).map (wrcellOf ch attr)) s =
      .next { s with fb := s.fb.fillCells ch attr (n + 1), response := none } := by
  induction n with
  | zero => exact execAll_cons (exec_wrcellOf h ch attr hn) []
  | succ n ih =>
    rw [List.range_succ, List.map_append, execAll_append (ih (by omega))]
    exact execAll_cons
      (exec_wrcellOf (s := { s with fb := s.fb.fillCells ch attr (n + 1), response := none }) h ch attr hn) []

/-- Settles O30: the 2000 commands, numbered row by row, write the cells that FILL writes. -/
theorem fillIsTheSeriesOfCellWrites : Obligations.FillIsTheSeriesOfCellWrites := by
  intro s ch attr h
  have hlist := congrArg (execAll · s) (flatMap_range_rowMajor (wrcellOf ch attr) 25 80)
  exact hlist.trans (execAll_wrcellOf h ch attr (n := 1999) (by decide))

end Sys2Proof.Machine

/-! # Bus access: port and framebuffer reactions, and the frames of the commands (40_bus_access.md)

Each reaction (R80 to R89) has one equation per case. What a bus command does then follows from how its rule ends: at a stop
(`conclude_noResponse_of_error`, `conclude_respondByte_of_error`), or completing (`conclude_noResponse_eq_next`,
`conclude_respondByte_of_ok`). -/

namespace Sys2Proof.Machine

/-! ## How a command without a response, and one that answers a byte, ends (R28) -/

/-- A command that delivers no response completes exactly where its rule gives a state. -/
theorem conclude_noResponse_eq_next {w : CommandWord} {s t : State} {x : Except Stop State} :
    conclude w s (noResponse x) = .next t ↔ ∃ u, x = .ok u ∧ t = { u with response := none } := by
  cases x with
  | error e => simp [stopWith_ne_next]
  | ok u => simp [eq_comm]

theorem conclude_noResponse_of_error {w : CommandWord} {s : State} {x : Except Stop State} {e : Stop} (h : x = .error e) :
    conclude w s (noResponse x) = stopWith w s e := by
  rw [h, noResponse_error, conclude_error]

theorem conclude_respondByte_of_ok {w : CommandWord} {s : State} {x : Except Stop Byte} {b : Byte} (h : x = .ok b) :
    conclude w s (respondByte s x) = .next { s with response := some (byteResponse b) } := by
  rw [h, respondByte_ok, conclude_ok]

theorem conclude_respondByte_of_error {w : CommandWord} {s : State} {x : Except Stop Byte} {e : Stop} (h : x = .error e) :
    conclude w s (respondByte s x) = stopWith w s e := by
  rw [h, respondByte_error, conclude_error]

/-- A byte response is the byte as a number (R61). -/
theorem byteResponse_toNat (b : Byte) : (byteResponse b).toNat = b.toNat :=
  BitVec.toNat_setWidth_of_le (by decide)

/-! ## The data port under each selector (R81, R83, R85) -/

theorem dataWrite_unset {s : State} (hs : s.sel = none) (v : Byte) :
    dataWrite v s = .error (.fault .selectorUnset none) := by
  simp only [dataWrite, hs]

/-- The low byte is written where SEL names it and not the high one. -/
theorem dataWrite_low_of_ne {s : State} (hs : s.sel = some s.params.curLoIdx) (hne : s.params.curLoIdx ≠ s.params.curHiIdx)
    (v : Byte) : dataWrite v s = .ok { s with cur := s.params.keepCur (highByte s.cur ++ v) } := by
  simp only [dataWrite, hs, if_neg hne, if_true]

theorem dataWrite_other {s : State} {x : Byte} (hs : s.sel = some x) (hhi : x ≠ s.params.curHiIdx)
    (hlo : x ≠ s.params.curLoIdx) (v : Byte) : dataWrite v s = .error (.refuse .otherControllerRegister) := by
  simp only [dataWrite, hs, if_neg hhi, if_neg hlo]

theorem dataRead_unset {s : State} (hs : s.sel = none) : dataRead s = .error (.fault .selectorUnset none) := by
  simp only [dataRead, hs]

/-- The low byte is read where SEL names it and not the high one. -/
theorem dataRead_low_of_ne {s : State} (hs : s.sel = some s.params.curLoIdx) (hne : s.params.curLoIdx ≠ s.params.curHiIdx) :
    dataRead s = .ok (lowByte s.cur) := by
  simp only [dataRead, hs, if_neg hne, if_true]

theorem dataRead_other {s : State} {x : Byte} (hs : s.sel = some x) (hhi : x ≠ s.params.curHiIdx)
    (hlo : x ≠ s.params.curLoIdx) : dataRead s = .error (.refuse .otherControllerRegister) := by
  simp only [dataRead, hs, if_neg hhi, if_neg hlo]

/-! ## The ports (R80, R82, R84, R86) -/

theorem portWrite8_dataPort {s : State} {p : U16} (hsel : p ≠ s.params.selPort) (hdata : p = s.params.dataPort) (v : Byte) :
    portWrite8 p v s = dataWrite v s := by
  rw [portWrite8, if_neg hsel, if_pos hdata]

theorem portWrite8_unclaimed {s : State} {p : U16} (hsel : p ≠ s.params.selPort) (hdata : p ≠ s.params.dataPort) (v : Byte) :
    portWrite8 p v s = .error (.refuse .unclaimedPort) := by
  rw [portWrite8, if_neg hsel, if_neg hdata]

theorem portRead8_dataPort {s : State} {p : U16} (hdata : p = s.params.dataPort) : portRead8 p s = dataRead s := by
  rw [portRead8, if_pos hdata]

theorem portRead8_selPort {s : State} {p : U16} (hdata : p ≠ s.params.dataPort) (hsel : p = s.params.selPort) :
    portRead8 p s = .error (.refuse .selectorRead) := by
  rw [portRead8, if_neg hdata, if_pos hsel]

theorem portRead8_unclaimed {s : State} {p : U16} (hdata : p ≠ s.params.dataPort) (hsel : p ≠ s.params.selPort) :
    portRead8 p s = .error (.refuse .unclaimedPort) := by
  rw [portRead8, if_neg hdata, if_neg hsel]

/-- IOWRW and IORDW both stop at what a 16-bit access to their port gives (R92, R93). -/
theorem exec_word_port_of_stop {s : State} {port : U16} {e : Stop} (h : portAccess16 (s.params.readPort port) s = e)
    (val16 : U16) :
    exec (.iowrw port val16) s = stopWith (encode (.iowrw port val16)) s e ∧
      exec (.iordw port) s = stopWith (encode (.iordw port)) s e :=
  ⟨congrArg (stopWith _ s) h, congrArg (stopWith _ s) h⟩

/-! ## The framebuffer (R87 to R89) -/

/-- The address `FB_BASE + i` inside the region is offset `i` of FB (R41). -/
theorem fbIndex_inside {s : State} {a : U32} {i : Nat} (hi : i < 4000) (ha : a.toNat = s.params.fbBase.toNat + i) :
    fbIndex a s = .ok i := by
  have hsize : fbSize = 4000 := rfl
  rw [fbIndex, if_pos ⟨by omega, by omega⟩, ha, Nat.add_sub_cancel_left]

theorem fbIndex_outside {s : State} {a : U32}
    (h : a.toNat < s.params.fbBase.toNat ∨ s.params.fbBase.toNat + 4000 ≤ a.toNat) :
    fbIndex a s = .error (.refuse .outsideFramebuffer) := by
  have hsize : fbSize = 4000 := rfl
  exact if_neg fun ⟨hlow, hhigh⟩ => by omega

theorem memWrite_of_index {s : State} {a : U32} {i : Nat} (h : fbIndex a s = .ok i) (v : Byte) :
    memWrite a v s = .ok (s.writeFb i v) := by
  simp only [memWrite, h]

theorem memWrite_of_no_index {s : State} {a : U32} {e : Stop} (h : fbIndex a s = .error e) (v : Byte) :
    memWrite a v s = .error e := by
  simp only [memWrite, h]

theorem memRead_of_index {s : State} {a : U32} {i : Nat} (h : fbIndex a s = .ok i) : memRead a s = .ok (s.readFb i) := by
  simp only [memRead, h]

theorem memRead_of_no_index {s : State} {a : U32} {e : Stop} (h : fbIndex a s = .error e) : memRead a s = .error e := by
  simp only [memRead, h]

/-! ## What a data-port write keeps (R81) -/

/-- A well-formed cursor register has a whole low byte. -/
theorem lowByte_keepCur {p : Params} (h : p.WellFormed) (v : U16) : lowByte (p.keepCur v) = lowByte v := by
  obtain ⟨-, hbytes, -⟩ := Params.curSize h
  refine BitVec.eq_of_toNat_eq ?_
  rw [lowByte_toNat, lowByte_toNat, Params.keepCur_toNat, Nat.mod_mod_of_dvd _ (Nat.dvd_of_mod_eq_zero hbytes)]

/-- An accepted write to the data port changes one byte of CUR: the low one stays where SEL names the high one, and else the high
one stays, since the register holds CUR. -/
theorem dataWrite_frame {s t : State} {v : Byte} (hs : s.Inv) (h : dataWrite v s = .ok t) :
    ∃ c, t = { s with cur := c } ∧ (s.sel = some s.params.curHiIdx → lowByte c = lowByte s.cur) ∧
      (s.sel ≠ some s.params.curHiIdx → highByte c = highByte s.cur) := by
  obtain ⟨hp, -, hcur⟩ := hs
  rcases dataWrite_cases h with ⟨hsel, rfl⟩ | ⟨hsel, hne, rfl⟩
  · exact ⟨_, rfl, fun _ => by rw [lowByte_keepCur hp, lowByte_append], (absurd hsel ·)⟩
  · refine ⟨_, rfl, fun hhi => ?_, fun _ => by rw [keepCur_highByte_append hp hcur, highByte_append]⟩
    exact absurd (Option.some.inj (hsel.symm.trans hhi)) hne

/-! ## The statements -/

/-- Settles O16: the address is an offset of FB or none, and a write stores at its offset alone. -/
theorem hostByteWriteReachesTheFramebuffer : Obligations.HostByteWriteReachesTheFramebuffer := by
  rintro s addr _ v hfb rfl
  refine ⟨fun i hi ha => ?_, fun h => conclude_noResponse_of_error (memWrite_of_no_index (fbIndex_outside h) v)⟩
  refine ⟨_, conclude_noResponse_eq_next.2 ⟨_, memWrite_of_index (fbIndex_inside hi ha) v, rfl⟩, rfl, ?_, fun k hk => ?_⟩
  · exact Memory.read_write_same hfb.1 i v
  · exact Memory.read_write_ne v hk

/-- Settles O32: of what a completed command can write, these five write nothing. -/
theorem frameOfCommandsThatOnlyAnswer : Obligations.FrameOfCommandsThatOnlyAnswer := by
  intro s t i hi h
  have ht : t = { s with response := t.response } := by
    rcases exec_next_writes h with ht | ⟨port, v, rfl, -⟩ | ⟨rfl, -⟩ | ⟨off, rfl, -⟩ | ⟨hw, -⟩
    · exact ht
    · simp at hi
    · simp at hi
    · simp at hi
    · rcases hw with ⟨a, v, rfl⟩ | ⟨o, c, a, rfl⟩ | ⟨x, y, c, a, rfl⟩ | ⟨c, a, rfl⟩ <;> simp at hi
  exact ⟨ht, fun k => by rw [ht]; rfl⟩

/-- Settles O33, from the frame of a data-port write and the closed forms of GETCUR and SETCUR. -/
theorem frameOfPortAndCursorCommands : Obligations.FrameOfPortAndCursorCommands := by
  intro s t hs
  refine ⟨fun port v h => ?_, fun h => ?_, fun off h => ?_⟩
  · obtain ⟨u, hu, rfl⟩ := conclude_noResponse_eq_next.1 h
    rcases portWrite8_cases hu with ⟨hsel, rfl⟩ | ⟨hsel, -, hd⟩
    · exact ⟨rfl, fun _ => rfl, fun _ => rfl, (absurd hsel ·)⟩
    · obtain ⟨c, rfl, hlow, hhigh⟩ := dataWrite_frame hs hd
      refine ⟨rfl, fun _ => rfl, (absurd · hsel), fun _ => ⟨rfl, fun hhi => ?_, fun hhi => ?_⟩⟩
      · simpa only [lowByte_toNat] using congrArg BitVec.toNat (hlow hhi)
      · simpa only [highByte_toNat] using congrArg BitVec.toNat (hhigh hhi)
  · obtain rfl := Host.Outcome.next.inj (h.symm.trans (exec_getcur_eq hs.1))
    exact ⟨rfl, fun _ => rfl⟩
  · obtain rfl := Host.Outcome.next.inj (h.symm.trans (exec_setcur_eq hs.1 off))
    exact ⟨rfl, fun _ => rfl⟩

/-- Settles O34: each rule stores to its bytes of FB and to nothing else. -/
theorem frameOfFramebufferWriters : Obligations.FrameOfFramebufferWriters := by
  intro s t
  refine ⟨fun addr v h => ?_, fun off ch attr h => ?_, fun col row ch attr h => ?_, fun ch attr h => ?_⟩
  · obtain ⟨u, hu, rfl⟩ := conclude_noResponse_eq_next.1 h
    obtain ⟨-, rfl⟩ := memWrite_cases hu
    exact ⟨rfl, fun k hk => Memory.read_write_ne v hk⟩
  · obtain ⟨u, hu, rfl⟩ := conclude_noResponse_eq_next.1 h
    obtain ⟨-, -, rfl⟩ := writeCell_cases hu
    refine ⟨rfl, ?_⟩
    rintro _ rfl k hch hattr
    exact Memory.read_putCell_ne s.fb ch attr hch hattr
  · obtain ⟨u, r, hu, rfl⟩ := conclude_eq_next.1 h
    rw [writeCharacter_eq] at hu
    split at hu
    · obtain ⟨rfl, -⟩ := Prod.mk.inj (Except.ok.inj hu)
      exact ⟨rfl, fun _ _ => rfl, fun _ _ _ _ _ => rfl⟩
    · next hnl =>
      obtain ⟨rfl, -⟩ := Prod.mk.inj (Except.ok.inj hu)
      refine ⟨rfl, (absurd · hnl), ?_⟩
      rintro _ rfl k hch hattr
      exact Memory.read_putCell_ne s.fb ch attr hch hattr
  · obtain rfl := Host.Outcome.next.inj h
    exact ⟨rfl, fun k hk => Memory.read_fillCells_ge s.fb ch attr (n := 2000) le_rfl hk⟩

/-- Settles O13, case by case on the port and, for the data port, on SEL. -/
theorem portByteWriteReaction : Obligations.PortByteWriteReaction := by
  rintro s port _ v rfl
  refine ⟨fun hsel => ?_, fun hsel hdata => ?_, fun hsel hdata => ?_⟩
  · exact conclude_noResponse_eq_next.2 ⟨_, hsel ▸ portWrite8_selPort v s, rfl⟩
  · have hport := portWrite8_dataPort hsel hdata v
    refine ⟨fun hs => ?_, fun hs => ?_, fun hs hne => ?_, fun x hs hhi hlo => ?_⟩
    · exact conclude_noResponse_of_error (hport.trans (dataWrite_unset hs v))
    · refine ⟨_, ?_, conclude_noResponse_eq_next.2 ⟨_, hport.trans (dataWrite_high hs v), rfl⟩⟩
      rw [Params.keepCur_toNat, append_toNat, lowByte_toNat]
    · refine ⟨_, ?_, conclude_noResponse_eq_next.2 ⟨_, hport.trans (dataWrite_low_of_ne hs hne v), rfl⟩⟩
      rw [Params.keepCur_toNat, append_toNat, highByte_toNat]
    · exact conclude_noResponse_of_error (hport.trans (dataWrite_other hs hhi hlo v))
  · exact conclude_noResponse_of_error (portWrite8_unclaimed hsel hdata v)

/-- Settles O14, case by case on the port and, for the data port, on SEL. -/
theorem portByteReadReaction : Obligations.PortByteReadReaction := by
  rintro s port _ rfl
  refine ⟨fun hdata => ?_, fun hdata hsel => ?_, fun hdata hsel => ?_⟩
  · have hport := portRead8_dataPort hdata
    refine ⟨fun hs => ?_, fun hs => ?_, fun hs hne => ?_, fun x hs hhi hlo => ?_⟩
    · exact conclude_respondByte_of_error (hport.trans (dataRead_unset hs))
    · refine ⟨_, ?_, conclude_respondByte_of_ok (hport.trans (dataRead_high hs))⟩
      rw [byteResponse_toNat, highByte_toNat]
    · refine ⟨_, ?_, conclude_respondByte_of_ok (hport.trans (dataRead_low_of_ne hs hne))⟩
      rw [byteResponse_toNat, lowByte_toNat]
    · exact conclude_respondByte_of_error (hport.trans (dataRead_other hs hhi hlo))
  · exact conclude_respondByte_of_error (portRead8_selPort hdata hsel)
  · exact conclude_respondByte_of_error (portRead8_unclaimed hdata hsel)

/-- Settles O15: a 16-bit access is refused for one reason on the block's two ports and for another elsewhere. -/
theorem wordPortCommandsAreRefused : Obligations.WordPortCommandsAreRefused := by
  rintro s port val16 _ rfl
  refine ⟨fun h => ?_, fun hsel hdata => ?_⟩
  · exact exec_word_port_of_stop (if_pos h) val16
  · exact exec_word_port_of_stop (if_neg (not_or.2 ⟨hsel, hdata⟩)) val16

/-- Settles O17: the address is an offset of FB or none. -/
theorem hostByteReadAnswersTheFramebuffer : Obligations.HostByteReadAnswersTheFramebuffer := by
  rintro s addr _ rfl
  refine ⟨fun i hi ha => ?_, fun h => conclude_respondByte_of_error (memRead_of_no_index (fbIndex_outside h))⟩
  exact ⟨_, byteResponse_toNat _, conclude_respondByte_of_ok (memRead_of_index (fbIndex_inside hi ha))⟩

end Sys2Proof.Machine

/-! # Address calculator: OFFSET, ROWOF, COLOF and the characters placed by them (41_addressing.md, 43_cell_writer.md R141)

`ClampsTo` is the clamp of R100 as a relation, `offsetOf_toNat_of_clampsTo` the offset it gives. Each calculator command answers
the word whose number is its formula (`answers_offset`, `answers_rowof`, `answers_colof`); the laws then compare numbers. -/

namespace Sys2Proof.Machine

/-! ## The clamps (R100) -/

/-- `c` is the index that `v` is clamped to, `top` being the last valid one (R100). -/
def ClampsTo (v top c : Int) : Prop := v < 0 ∧ c = 0 ∨ 0 ≤ v ∧ v ≤ top ∧ c = v ∨ top + 1 ≤ v ∧ c = top

theorem ClampsTo.toNat_clamp {v top c : Int} (h : ClampsTo v top c) (htop : 0 ≤ top) : ((clamp v 0 top).toNat : Int) = c := by
  unfold clamp
  rcases h with ⟨hv, rfl⟩ | ⟨h0, hv, rfl⟩ | ⟨hv, rfl⟩
  · rw [if_pos hv]; rfl
  · rw [if_neg (by omega), if_neg (by omega), Int.toNat_of_nonneg h0]
  · rw [if_neg (by omega), if_pos (by omega), Int.toNat_of_nonneg htop]

theorem ClampsTo.clampCol_eq {x : U32} {c : Int} (h : ClampsTo x.toInt 79 c) : (clampCol x : Int) = c := h.toNat_clamp (by decide)

theorem ClampsTo.clampRow_eq {y : U32} {r : Int} (h : ClampsTo y.toInt 24 r) : (clampRow y : Int) = r := h.toNat_clamp (by decide)

/-- The clamp of a coordinate field into a field: a coordinate that is not negative is its own unsigned value. -/
theorem clampsTo_of_field {x c m : U32} {top : Int} (hm : m.toNat = top)
    (h : x.toInt < 0 ∧ c = 0 ∨ 0 ≤ x.toInt ∧ x.toInt ≤ top ∧ c = x ∨ top + 1 ≤ x.toInt ∧ c = m) :
    ClampsTo x.toInt top c.toNat := by
  rcases h with ⟨hx, rfl⟩ | ⟨h0, hx, rfl⟩ | ⟨hx, rfl⟩
  · exact .inl ⟨hx, rfl⟩
  · refine .inr (.inl ⟨h0, hx, ?_⟩)
    rw [BitVec.toInt_eq_toNat_cond] at h0 ⊢
    split at h0 <;> omega
  · exact .inr (.inr ⟨hx, hm⟩)

/-- OFFSET of a pair as the formula of its clamped pair (R101). -/
theorem offsetOf_toNat_of_clampsTo {x y : U32} {c r : Int} (hc : ClampsTo x.toInt 79 c) (hr : ClampsTo y.toInt 24 r) :
    ((offsetOf x y).toNat : Int) = 2 * (r * 80 + c) := by
  rw [offsetOf_toNat, ← hc.clampCol_eq, ← hr.clampRow_eq]
  push_cast
  rfl

/-! ## What the calculator's commands answer (R101 to R104) -/

theorem answers_offset (s : State) (col row : U32) :
    Answers (.offset col row) s (offsetOf (s.params.readCoord col) (s.params.readCoord row)) := rfl

theorem answers_rowof {s : State} {off v : U32} (hv : v.toNat = (s.params.readOffset off).toNat / 160) :
    Answers (.rowof off) s v := by
  obtain rfl : v = rowOf (s.params.readOffset off) := BitVec.eq_of_toNat_eq (by rw [hv, rowOf_toNat])
  rfl

theorem answers_colof {s : State} {off v : U32} (hv : v.toNat = (s.params.readOffset off).toNat % 160 / 2) :
    Answers (.colof off) s v := by
  obtain rfl : v = colOf (s.params.readOffset off) := BitVec.eq_of_toNat_eq (by rw [hv, colOf_toNat])
  rfl

/-- On the grid OFFSET answers the cell's offset, at any well-formed width (R101). -/
theorem answers_offset_of_grid {s : State} (h : s.params.WellFormed) {c r v : U32} (hc : c.toNat < 80) (hr : r.toNat < 25)
    (hv : v.toNat = 2 * (r.toNat * 80 + c.toNat)) : Answers (.offset c r) s v := by
  have hread := answers_offset s c r
  rw [Params.readCoord_of_le h (by omega), Params.readCoord_of_le h (by omega)] at hread
  have hoff : v = offsetOf c r :=
    BitVec.eq_of_toNat_eq (by rw [hv, offsetOf_toNat, clampCol_of_lt hc, clampRow_of_lt hr])
  exact hoff ▸ hread

/-- Below offset 4000 OFFSET of COLOF and ROWOF gives the offset back, less 1 where it is odd (R105 items 1 and 3). -/
theorem answers_offset_of_colOf_rowOf {s : State} (h : s.params.WellFormed) {o v : U32} (ho : o.toNat < 4000)
    (hv : v.toNat = o.toNat / 2 * 2) : Answers (.offset (colOf o) (rowOf o)) s v :=
  answers_offset_of_grid h (by rw [colOf_toNat]; omega) (by rw [rowOf_toNat]; omega)
    (by rw [colOf_toNat, rowOf_toNat]; omega)

/-- From offset 4000 on, OFFSET of COLOF and ROWOF keeps the column and clamps the row to 24 (R105 item 2). -/
theorem answers_offset_of_colOf_rowOf_past {s : State} (h : s.params.WellFormed) {o v : U32} (ho : 4000 ≤ o.toNat)
    (hw : o.toNat < 2 ^ s.params.offsetWidth) (hv : v.toNat = 3840 + 2 * (colOf o).toNat) :
    Answers (.offset (colOf o) (rowOf o)) s v := by
  have hcol : (colOf o).toNat < 80 := by rw [colOf_toNat]; omega
  have hrow := rowOf_toNat o
  have hread := answers_offset s (colOf o) (rowOf o)
  rw [Params.readCoord_of_le h (by omega), Params.readCoord_of_row h hw hrow] at hread
  have hoff : v = offsetOf (colOf o) (rowOf o) := BitVec.eq_of_toNat_eq (by
    rw [hv, offsetOf_toNat, clampCol_of_lt hcol, clampRow_of_ge (by omega) (by omega)]
    omega)
  exact hoff ▸ hread

/-- COLOF and ROWOF of an offset that OFFSET_WIDTH bits can hold (R102, R103). -/
theorem answers_colof_and_rowof {s : State} {o : U32} (h : s.params.readOffset o = o) :
    Answers (.colof o) s (colOf o) ∧ Answers (.rowof o) s (rowOf o) :=
  ⟨answers_colof (by rw [h, colOf_toNat]), answers_rowof (by rw [h, rowOf_toNat])⟩

/-- OFFSET of the clamped pair, given as fields, answers what OFFSET of the pair does (R105 item 4). -/
theorem answers_offset_of_clamped {s : State} (h : s.params.WellFormed) {col row c r : U32}
    (hc : ClampsTo (s.params.readCoord col).toInt 79 c.toNat) (hr : ClampsTo (s.params.readCoord row).toInt 24 r.toNat) :
    Answers (.offset c r) s (offsetOf (s.params.readCoord col) (s.params.readCoord row)) := by
  have hcol := hc.clampCol_eq
  have hrow := hr.clampRow_eq
  have hcol_lt := clampCol_lt (s.params.readCoord col)
  have hrow_lt := clampRow_lt (s.params.readCoord row)
  exact answers_offset_of_grid h (by omega) (by omega) (by rw [offsetOf_toNat]; omega)

/-- From a cell of the grid to the next one in row-major order OFFSET rises by 2 (R105 item 5). -/
theorem answers_offset_of_next_cell {s : State} (h : s.params.WellFormed) {c r c' r' : U32} (hc : c.toNat < 80)
    (hr : r.toNat < 25) (hc' : c'.toNat < 80) (hr' : r'.toNat < 25)
    (hnext : r'.toNat * 80 + c'.toNat = r.toNat * 80 + c.toNat + 1) :
    ∃ v, Answers (.offset c r) s v ∧ Answers (.offset c' r') s (v + 2) := by
  have hv := cellOffset_toNat hc hr
  exact ⟨_, answers_offset_of_grid h hc hr hv, answers_offset_of_grid h hc' hr' (by bv_omega)⟩

/-! ## WRCHAR in closed form (R141) -/

theorem exec_wrchar_of_ne {s : State} {ch : Byte} (hch : ch ≠ s.params.chNewline) (col row : U32) (attr : Byte) :
    exec (.wrchar col row ch attr) s =
      .next { s.putCell (offsetOf (s.params.readCoord col) (s.params.readCoord row)) ch attr with
        response := some (offsetOf (s.params.readCoord col) (s.params.readCoord row) + 2) } :=
  conclude_eq_next.2 ⟨_, _, (writeCharacter_eq _ _ _ _ _).trans (if_neg hch), rfl⟩

theorem answers_wrchar_newline {s : State} {ch : Byte} (hch : ch = s.params.chNewline) (col row : U32) (attr : Byte) :
    Answers (.wrchar col row ch attr) s (newlineOffset (offsetOf (s.params.readCoord col) (s.params.readCoord row))) :=
  conclude_eq_next.2 ⟨_, _, (writeCharacter_eq _ _ _ _ _).trans (if_pos hch), rfl⟩

/-! ## The statements -/

/-- Settles O18: the answer is the formula of the clamped pair, in the calculator's range. -/
theorem offsetClampsThenComputes : Obligations.OffsetClampsThenComputes := by
  rintro s col row _ _ c r rfl rfl hc hr
  obtain ⟨heven, hle⟩ := offsetOf_range (s.params.readCoord col) (s.params.readCoord row)
  exact ⟨_, offsetOf_toNat_of_clampsTo hc hr, heven, hle, answers_offset s col row⟩

/-- Settles O19: no offset's quotient leaves 32 bits. -/
theorem rowOfDividesByTheRowBytes : Obligations.RowOfDividesByTheRowBytes :=
  fun _ _ => ⟨_, rowOf_toNat _, rfl⟩

/-- Settles O20: the offset less its row's base is its remainder by 160. -/
theorem columnOfHalvesTheRest : Obligations.ColumnOfHalvesTheRest := by
  rintro s off o rfl
  have hcol := colOf_toNat (s.params.readOffset off)
  exact ⟨_, by omega, by omega, answers_colof hcol⟩

/-- Settles O21: `2 × (r × 80 + c)` has quotient `r` and half remainder `c` by 160. -/
theorem calculatorIsConsistent : Obligations.CalculatorIsConsistent := by
  intro s c r h hc hr
  have ho := cellOffset_toNat hc hr
  have hread := Params.readOffset_of_le h (v := cellOffset c.toNat r.toNat) (by omega)
  exact ⟨_, answers_offset_of_grid h hc hr ho, answers_rowof (by rw [hread]; omega), answers_colof (by rw [hread]; omega)⟩

/-- Settles O22, law by law. -/
theorem calculatorLaws : Obligations.CalculatorLaws := by
  intro s h
  refine ⟨fun o heven ho => ?_, fun o ho hw => ?_, fun o hodd ho => ?_, ?_, fun c r hc hr => ?_, fun r hr => ?_⟩
  · obtain ⟨hcol, hrow⟩ := answers_colof_and_rowof (Params.readOffset_of_le h (show o.toNat ≤ 4000 by omega))
    exact ⟨_, _, hcol, hrow, answers_offset_of_colOf_rowOf h (by omega) (by omega)⟩
  · obtain ⟨hcol, hrow⟩ := answers_colof_and_rowof (Params.readOffset_of_lt hw)
    have hcol_lt : (colOf o).toNat < 80 := by rw [colOf_toNat]; omega
    have hv : (3840 + 2 * colOf o).toNat = 3840 + 2 * (colOf o).toNat := by bv_omega
    refine ⟨_, _, _, hcol, hrow, answers_offset_of_colOf_rowOf_past h ho hw hv, hv, ?_, ?_⟩
    · rintro rfl; decide
    · rintro rfl; decide
  · obtain ⟨hcol, hrow⟩ := answers_colof_and_rowof (Params.readOffset_of_le h (show o.toNat ≤ 4000 by omega))
    have hv : (o - 1).toNat = o.toNat - 1 := by bv_omega
    exact ⟨_, _, _, hcol, hrow, answers_offset_of_colOf_rowOf h (by omega) (by omega), hv⟩
  · rintro col row _ _ c r rfl rfl hc hr
    exact ⟨_, answers_offset s col row, answers_offset_of_clamped h (clampsTo_of_field rfl hc) (clampsTo_of_field rfl hr)⟩
  · exact answers_offset_of_next_cell h (by omega) hr (by bv_omega) hr (by bv_omega)
  · exact answers_offset_of_next_cell h (by decide) (by omega) (by decide) (by bv_omega) (by bv_omega)

/-- Settles O28, from WRCHAR in closed form at the offset of the clamped pair. -/
theorem wrcharWritesTheCellOrMovesDown : Obligations.WrcharWritesTheCellOrMovesDown := by
  rintro s col row _ _ ch attr c r hfb rfl rfl hx hy
  have hc : ClampsTo (s.params.readCoord col).toInt 79 c := by unfold ClampsTo; omega
  have hr : ClampsTo (s.params.readCoord row).toInt 24 r := by unfold ClampsTo; omega
  refine ⟨fun hch => ⟨_, _, exec_wrchar_of_ne hch col row attr, rfl, ?_⟩,
    fun hch => ⟨_, answers_wrchar_newline hch col row attr, ?_⟩⟩
  · have hformula := offsetOf_toNat_of_clampsTo hc hr
    generalize offsetOf (s.params.readCoord col) (s.params.readCoord row) = o at hformula ⊢
    have ho : o.toNat = 2 * (r * 80 + c) := by omega
    have hread := Memory.read_putCell hfb o ch attr
    rw [← ho]
    refine ⟨by bv_omega, (hread _).trans (if_pos rfl), (hread _).trans (by simp), fun k hch hattr => ?_⟩
    exact Memory.read_putCell_ne s.fb ch attr hch hattr
  · have hrow := hr.clampRow_eq
    rw [newlineOffset_toNat]
    omega

end Sys2Proof.Machine

/-! # Cursor register: what GETCUR answers after SETCUR (42_cursor.md) -/

namespace Sys2Proof.Machine

/-- GETCUR's response where CUR holds what SETCUR stores (R121, R122). -/
theorem cursorOffset_cursorValue_toNat {p : Params} (h : p.WellFormed) (off : U32) :
    (cursorOffset (highByte (cursorValue p off)) (lowByte (cursorValue p off))).toNat =
      off.toNat / 2 % 2 ^ p.curWidth * 2 := by
  rw [cursorOffset_toNat, cursorValue_toNat h, Nat.mul_comm]

/-- An even offset whose half the cursor register can hold is read back as it was (R123). -/
theorem cursorOffset_cursorValue_readOffset {p : Params} (h : p.WellFormed) {off : U32} (heven : off.toNat % 2 = 0)
    (hlt : off.toNat < 2 ^ (p.curWidth + 1)) :
    cursorOffset (highByte (cursorValue p (p.readOffset off))) (lowByte (cursorValue p (p.readOffset off))) = off := by
  rw [Nat.pow_succ] at hlt
  have hread : p.readOffset off = off := Params.readOffset_of_lt (by have := Params.twice_curSize_le h; omega)
  have hhalf : off.toNat / 2 % 2 ^ p.curWidth = off.toNat / 2 := Nat.mod_eq_of_lt (by omega)
  refine BitVec.eq_of_toNat_eq ?_
  rw [hread, cursorOffset_cursorValue_toNat h, hhalf]
  omega

/-- Settles O25: GETCUR in closed form from the state SETCUR leaves; neither closed form depends on SEL. -/
theorem cursorRoundTrip : Obligations.CursorRoundTrip := by
  intro s off h
  have hset := exec_setcur_eq h off
  refine ⟨⟨_, _, _, hset, exec_getcur_eq (s := { s with cur := _, sel := _, response := _ }) h, rfl,
    cursorOffset_cursorValue_toNat h _, cursorOffset_cursorValue_readOffset h⟩, fun x => ?_, fun x => ?_⟩
  · exact ⟨_, _, hset, exec_setcur_eq (s := { s with sel := x }) h off, rfl, rfl⟩
  · exact ⟨_, _, exec_getcur_eq h, exec_getcur_eq (s := { s with sel := x }) h, rfl, rfl⟩

end Sys2Proof.Machine

/-! # Character-cell writer: WRCELL, FILL and the laws of the writer (43_cell_writer.md)

WRCELL and FILL in closed form, beside WRCHAR's (`exec_wrchar_of_ne`, `answers_wrchar_newline`); the laws compare these forms. -/

namespace Sys2Proof.Machine

/-! ## WRCELL and FILL in closed form (R140, R142) -/

theorem exec_wrcell_of_even {s : State} {off : U32} (heven : (s.params.readOffset off).toNat % 2 = 0)
    (hle : (s.params.readOffset off).toNat ≤ 3998) (ch attr : Byte) :
    exec (.wrcell off ch attr) s = .next { s.putCell (s.params.readOffset off) ch attr with response := none } :=
  conclude_noResponse_eq_next.2 ⟨_, writeCell_eq heven hle ch attr s, rfl⟩

theorem writeCell_of_invalid {o : U32} (h : o.toNat % 2 ≠ 0 ∨ 3998 < o.toNat) (ch attr : Byte) (s : State) :
    writeCell o ch attr s = .error (.fault .cellOffsetInvalid (some o)) :=
  if_pos h

theorem exec_fill_eq (s : State) (ch attr : Byte) :
    exec (.fill ch attr) s = .next { s.fillGrid ch attr with response := none } := rfl

/-- FILL writes every byte of FB, so what an earlier FILL wrote does not show (R142). -/
theorem Memory.fillCells_fillCells {m : Memory} (hm : m.wf) (ch₁ attr₁ ch₂ attr₂ : Byte) :
    (m.fillCells ch₁ attr₁ 2000).fillCells ch₂ attr₂ 2000 = m.fillCells ch₂ attr₂ 2000 := by
  have hfst := fillCells_wf ch₁ attr₁ le_rfl hm
  refine ext_of_wf (fillCells_wf ch₂ attr₂ le_rfl hfst) (fillCells_wf ch₂ attr₂ le_rfl hm) fun k => ?_
  rw [read_fillCells _ _ le_rfl hfst, read_fillCells _ _ le_rfl hm, read_fillCells _ _ le_rfl hm]
  split <;> rfl

/-! ## The statements -/

/-- Settles O27: the cell write is accepted at an even offset of the grid, and stops the command at any other. -/
theorem wrcellWritesOneCellOrFaults : Obligations.WrcellWritesOneCellOrFaults := by
  rintro s off _ ch attr hfb rfl
  refine ⟨fun ⟨heven, hle⟩ => ⟨_, exec_wrcell_of_even heven hle ch attr, rfl, ?_⟩,
    fun hbad => conclude_noResponse_of_error (writeCell_of_invalid hbad ch attr s)⟩
  have hread := Memory.read_putCell hfb (s.params.readOffset off) ch attr
  exact ⟨(hread _).trans (if_pos rfl), (hread _).trans (by simp),
    fun k hch hattr => Memory.read_putCell_ne s.fb ch attr hch hattr⟩

/-- Settles O29: FILL has no case in which it stops, and every byte below 4000 is one of its cells'. -/
theorem fillWritesEveryCell : Obligations.FillWritesEveryCell := by
  intro s ch attr hfb
  refine ⟨_, exec_fill_eq s ch attr, rfl, fun k hk => ?_⟩
  have hread := State.readFb_fillGrid hfb ch attr
  exact ⟨(hread _).trans (by rw [if_neg (by omega), if_pos (by omega)]),
    (hread _).trans (by rw [if_neg (by omega), if_neg (by omega)])⟩

/-- Settles O31, law by law. -/
theorem characterWriterLaws : Obligations.CharacterWriterLaws := by
  intro s h hfb
  refine ⟨fun col row a => ⟨_, answers_wrchar_newline rfl col row a, rfl⟩, fun col row ch attr hch => ?_,
    fun c r ch attr hch hc hr => ?_, fun ch₁ attr₁ ch₂ attr₂ => ?_⟩
  · obtain ⟨heven, hle⟩ := offsetOf_range (s.params.readCoord col) (s.params.readCoord row)
    have hread : s.params.readOffset (offsetOf (s.params.readCoord col) (s.params.readCoord row)) = _ :=
      Params.readOffset_of_le h (by omega)
    refine ⟨_, _, answers_offset s col row, exec_wrcell_of_even (by rwa [hread]) (by rwa [hread]) ch attr, ?_⟩
    rw [hread]
    exact exec_wrchar_of_ne hch col row attr
  · have ho : (offsetOf (s.params.readCoord c) (s.params.readCoord r)).toNat = 2 * (r.toNat * 80 + c.toNat) := by
      rw [Params.readCoord_of_le h (by omega), Params.readCoord_of_le h (by omega), offsetOf_toNat, clampCol_of_lt hc,
        clampRow_of_lt hr]
    refine ⟨_, _, exec_wrchar_of_ne hch c r attr, rfl, fun hlt => ?_, fun heq hlt => ?_, fun heq hlast => ?_⟩
    · exact answers_offset_of_grid h (by bv_omega) hr (by bv_omega)
    · have hrow : (r + 1).toNat = r.toNat + 1 := by bv_omega
      exact answers_offset_of_grid h (by decide) (by omega) (by rw [hrow]; bv_omega)
    · bv_omega
  · refine ⟨_, _, exec_fill_eq s ch₁ attr₁, exec_fill_eq _ ch₂ attr₂, ?_⟩
    have hfill := Memory.fillCells_fillCells hfb ch₁ attr₁ ch₂ attr₂
    exact congrArg (fun m => Host.Outcome.next { s with fb := m, response := none }) hfill.symm

end Sys2Proof.Machine

/-! # PRINT_AT: the running position of a message with newlines (43_cell_writer.md R141, 45_host_sequences.md R162, R165 item 4)

A run of the machine is `State.RunsTo`. Resolving the coordinates changes nothing that is printed from (`runsTo_resolved`), one
iteration of the loop is four steps in closed form (`runsTo_iteration`), and `State.PrintedUpTo` is what holds before iteration
`i`; its part about FB is `Memory.Prints`. -/

namespace Sys2Proof.Machine

/-! ## Runs -/

/-- Some number of steps leads from `s` to `t`. -/
def State.RunsTo (s t : State) : Prop := ∃ k, runSteps k s = .next t

theorem State.RunsTo.refl (s : State) : s.RunsTo s := ⟨0, rfl⟩

theorem State.RunsTo.head {s t u : State} (h : step s = .next t) (ht : t.RunsTo u) : s.RunsTo u :=
  ht.imp' (· + 1) fun _ hk => (runSteps_succ_of_next h).trans hk

theorem State.RunsTo.trans {s t u : State} (hs : s.RunsTo t) (ht : t.RunsTo u) : s.RunsTo u := by
  obtain ⟨j, hj⟩ := hs
  obtain ⟨k, hk⟩ := ht
  exact ⟨j + k, (runSteps_add hj).trans hk⟩

/-! ## WRCHAR in one form for every character (R141) -/

/-- The next offset after the character `ch` at offset `o`, `nl` being the newline. -/
def nextOffset (nl ch : Byte) (o : U32) : U32 := if ch = nl then newlineOffset o else o + 2

/-- FB after the character `ch` at offset `o`, `nl` being the newline. -/
def Memory.putChar (m : Memory) (nl : Byte) (o : U32) (ch attr : Byte) : Memory :=
  if ch = nl then m else m.putCell o ch attr

theorem exec_wrchar_eq (s : State) (col row : U32) (ch attr : Byte) :
    exec (.wrchar col row ch attr) s = .next { s with
      fb := s.fb.putChar s.params.chNewline (offsetOf (s.params.readCoord col) (s.params.readCoord row)) ch attr,
      response := some (nextOffset s.params.chNewline ch (offsetOf (s.params.readCoord col) (s.params.readCoord row))) } := by
  unfold nextOffset Memory.putChar
  split
  · next hch => exact answers_wrchar_newline hch col row attr
  · next hch => exact exec_wrchar_of_ne hch col row attr

theorem Memory.putChar_wf {m : Memory} (hm : m.wf) (nl ch attr : Byte) {o : U32} (ho : o.toNat < 3999) :
    (m.putChar nl o ch attr).wf := by
  unfold Memory.putChar
  split
  · exact hm
  · exact putCell_wf hm ho ch attr

/-- The running position after the character `ch` at position `p`, `nl` being the newline (R165 item 4). -/
def nextPosition (nl ch : Byte) (p : Nat) : Nat :=
  if ch = nl then (if p < 3840 then 160 * (p / 160 + 1) else 3840) else if p + 2 < 4000 then p + 2 else 3840

/-- The cursor offset after the character `ch` at position `p`: the running position, but two bytes past the last cell after a
character there. -/
def cursorPosition (nl ch : Byte) (p : Nat) : Nat := if ch = nl then nextPosition nl ch p else p + 2

theorem nextPosition_lt (nl ch : Byte) (p : Nat) : nextPosition nl ch p < 4000 := by
  unfold nextPosition
  repeat' split
  all_goals omega

/-- The cursor offset and the next running position are the same up to the end of the grid. -/
theorem nextPosition_eq (nl ch : Byte) (p : Nat) :
    nextPosition nl ch p = if cursorPosition nl ch p < 4000 then cursorPosition nl ch p else 3840 := by
  unfold cursorPosition
  split
  · exact (if_pos (nextPosition_lt nl ch p)).symm
  · next hch => exact if_neg hch

/-- The next offset of WRCHAR is where the cursor goes (R161). -/
theorem nextOffset_toNat (nl ch : Byte) (col row : U32) {p : Nat} (hp : (offsetOf col row).toNat = p) :
    (nextOffset nl ch (offsetOf col row)).toNat = cursorPosition nl ch p := by
  have hcol := clampCol_lt col
  have hrow := clampRow_lt row
  have ho := offsetOf_toNat col row
  unfold nextOffset cursorPosition nextPosition
  split
  · rw [newlineOffset_toNat]
    split <;> omega
  · bv_omega

/-- Every next offset is even and at most 4000. -/
theorem nextOffset_range (nl ch : Byte) (col row : U32) :
    (nextOffset nl ch (offsetOf col row)).toNat % 2 = 0 ∧ (nextOffset nl ch (offsetOf col row)).toNat ≤ 4000 := by
  obtain ⟨heven, hle⟩ := offsetOf_range col row
  rw [nextOffset_toNat nl ch col row rfl]
  unfold cursorPosition nextPosition
  repeat' split
  all_goals omega

/-- The cell that COLOF and ROWOF of a next offset name: the one at that offset, or the start of row 24 past the grid. -/
theorem offsetOf_colOf_rowOf_toNat {p : Params} (h : p.WellFormed) {n : U32} (heven : n.toNat % 2 = 0)
    (hle : n.toNat ≤ 4000) :
    (offsetOf (p.readCoord (colOf n)) (p.readCoord (rowOf n))).toNat = if n.toNat < 4000 then n.toNat else 3840 := by
  have hcol := colOf_toNat n
  have hrow := rowOf_toNat n
  rw [Params.readCoord_of_le h (by omega), Params.readCoord_of_le h (by omega), offsetOf_toNat,
    clampCol_of_lt (by omega)]
  split
  · rw [clampRow_of_lt (by omega)]; omega
  · rw [clampRow_of_ge (by omega) (by omega)]; omega

/-! ## The steps of a print sequence in closed form (R161, R162) -/

section
variable {s : State} {rest : List HostItem} {x : RespName} {c r : Operand} {ch attr : Byte} {cv rv o n : U32}
  (hs : s.stopped = false)
include hs

theorem step_getcur_eq (h : s.params.WellFormed) (hp : s.pending = issueGetcur :: rest) :
    step s = .next { s with
      sel := some s.params.curHiIdx, response := some (cursorOffset (highByte s.cur) (lowByte s.cur)), pending := rest,
      names := bindName s.names .seqO (cursorOffset (highByte s.cur) (lowByte s.cur)) } := by
  rw [step_issueGetcur hs hp, exec_getcur_eq (s := { s with pending := rest }) h]
  rfl

theorem step_colof_eq (hp : s.pending = issueColof x :: rest)
    (hn : lookupName s.names x = some n) (hread : s.params.readOffset n = n) :
    step s = .next { s with
      response := some (colOf n), pending := rest, names := bindName s.names .seqC (colOf n) } := by
  rw [step_issueColof hs hp hn, (answers_colof_and_rowof (s := { s with pending := rest }) hread).1]
  rfl

theorem step_rowof_eq (hp : s.pending = issueRowof x :: rest)
    (hn : lookupName s.names x = some n) (hread : s.params.readOffset n = n) :
    step s = .next { s with
      response := some (rowOf n), pending := rest, names := bindName s.names .seqR (rowOf n) } := by
  rw [step_issueRowof hs hp hn, (answers_colof_and_rowof (s := { s with pending := rest }) hread).2]
  rfl

theorem step_setcur_eq (h : s.params.WellFormed) (hp : s.pending = issueSetcur :: rest)
    (hn : lookupName s.names .seqN = some n) (hread : s.params.readOffset n = n) :
    step s = .next { s with
      cur := cursorValue s.params n, sel := some s.params.curLoIdx, response := none, pending := rest } := by
  rw [step_issueSetcur hs hp hn, nameResponse_none, exec_setcur_eq (s := { s with pending := rest }) h, hread]

theorem step_wrchar_eq
    (hp : s.pending = issueWrchar c r ch attr :: rest) (hc : c.valueIn s.names = some cv) (hr : r.valueIn s.names = some rv)
    (ho : offsetOf (s.params.readCoord cv) (s.params.readCoord rv) = o) (hn : nextOffset s.params.chNewline ch o = n) :
    step s = .next { s with
      fb := s.fb.putChar s.params.chNewline o ch attr, response := some n, pending := rest,
      names := bindName s.names .seqN n } := by
  subst ho hn
  rw [step_issueWrchar hs hp hc hr, exec_wrchar_eq]
  rfl

/-- Resolving the coordinates selects a cursor register at most, and the operands of the loop then hold the coordinates
(R161). -/
theorem runsTo_resolved {col row : Coord} {c r : U32} (h : s.params.WellFormed) (hcur : s.cur.toNat < 2 ^ s.params.curWidth)
    (hcol : col = .at c ∨ col = .current ∧ c.toNat = 2 * s.cur.toNat % 160 / 2)
    (hrow : row = .at r ∨ row = .current ∧ r.toNat = 2 * s.cur.toNat / 160) (rest : List HostItem) :
    ∃ x v names, State.RunsTo { s with pending := resolveCoords col row ++ rest }
        { s with sel := x, response := v, names := names, pending := rest } ∧
      (columnOperand col).valueIn names = some c ∧ (rowOperand row).valueIn names = some r := by
  have hget := step_getcur_eq (s := { s with pending := resolveCoords col row ++ rest }) hs h
    (rest := (resolveCoords col row).tail ++ rest)
  have ho := cursorOffset_toNat s.cur
  simp only at hget
  generalize cursorOffset (highByte s.cur) (lowByte s.cur) = o at ho hget
  have hread : s.params.readOffset o = o := Params.readOffset_of_lt (by have := Params.twice_curSize_le h; omega)
  have hO := lookupName_bindName_same s.names .seqO o
  rcases hcol with rfl | ⟨rfl, hc⟩ <;> rcases hrow with rfl | ⟨rfl, hr⟩
  · exact ⟨s.sel, s.response, s.names, .refl _, rfl, rfl⟩
  · obtain rfl : r = rowOf o := BitVec.eq_of_toNat_eq (by rw [hr, rowOf_toNat, ho])
    exact ⟨_, _, _, .head (hget rfl) (.head (step_rowof_eq hs rfl hO hread) (.refl _)), rfl, lookupName_bindName_same ..⟩
  · obtain rfl : c = colOf o := BitVec.eq_of_toNat_eq (by rw [hc, colOf_toNat, ho])
    exact ⟨_, _, _, .head (hget rfl) (.head (step_colof_eq hs rfl hO hread) (.refl _)), lookupName_bindName_same .., rfl⟩
  · obtain rfl : r = rowOf o := BitVec.eq_of_toNat_eq (by rw [hr, rowOf_toNat, ho])
    obtain rfl : c = colOf o := BitVec.eq_of_toNat_eq (by rw [hc, colOf_toNat, ho])
    have hO' := (lookupName_bindName_ne (bindName s.names .seqO o) (n := .seqC) (colOf o) (by decide)).trans hO
    exact ⟨_, _, _, .head (hget rfl) (.head (step_colof_eq hs rfl hO hread)
        (.head (step_rowof_eq hs rfl hO' hread) (.refl _))),
      (lookupName_bindName_ne _ _ (by decide)).trans (lookupName_bindName_same ..), lookupName_bindName_same ..⟩

/-- One iteration of the loop of PRINT_AT: the character is written, the cursor set to the next offset, and the running column
and row taken from it (R162). -/
theorem runsTo_iteration {msg : List Byte} (h : s.params.WellFormed)
    (hp : s.pending = printLoop attr c r (ch :: msg) ++ rest)
    (hc : c.valueIn s.names = some cv) (hr : r.valueIn s.names = some rv)
    (ho : offsetOf (s.params.readCoord cv) (s.params.readCoord rv) = o) (hn : nextOffset s.params.chNewline ch o = n) :
    s.RunsTo { s with
      fb := s.fb.putChar s.params.chNewline o ch attr, cur := cursorValue s.params n, sel := some s.params.curLoIdx,
      response := some (rowOf n), pending := printLoop attr (.resp .seqC) (.resp .seqR) msg ++ rest,
      names := bindName (bindName (bindName s.names .seqN n) .seqC (colOf n)) .seqR (rowOf n) } := by
  have hread : s.params.readOffset n = n :=
    Params.readOffset_of_le h (by rw [← hn, ← ho]; exact (nextOffset_range ..).2)
  have hN := lookupName_bindName_same s.names .seqN n
  have hN' := (lookupName_bindName_ne (bindName s.names .seqN n) (n := .seqC) (colOf n) (by decide)).trans hN
  exact .head (step_wrchar_eq hs hp hc hr ho hn) (.head (step_setcur_eq hs h rfl hN hread)
    (.head (step_colof_eq hs rfl hN hread) (.head (step_rowof_eq hs rfl hN' hread) (.refl _))))

end

/-! ## What the loop has printed (R162, R165 item 4) -/

/-- `m'` is `m` with the characters of `msg` before the `i`-th written at their positions, newlines `nl` apart: a later one
overwrites an earlier one at the same position, and every other byte is as in `m`. Positions are even, so two cells are the same
or share no byte. -/
structure Memory.Prints (m : Memory) (nl attr : Byte) (msg : List Byte) (pos : Nat → Nat) (i : Nat) (m' : Memory) : Prop where
  even : ∀ j < i, pos j % 2 = 0
  cells : ∀ (j : Nat) (h : j < msg.length), j < i → msg[j] ≠ nl →
    (∀ (k : Nat) (h : k < msg.length), j < k → k < i → msg[k] ≠ nl → pos k ≠ pos j) →
    m'.read (pos j) = msg[j] ∧ m'.read (pos j + 1) = attr
  frame : ∀ q, (∀ (j : Nat) (h : j < msg.length), j < i → msg[j] ≠ nl → q ≠ pos j ∧ q ≠ pos j + 1) → m'.read q = m.read q

theorem Memory.Prints.zero (m : Memory) (nl attr : Byte) (msg : List Byte) (pos : Nat → Nat) :
    m.Prints nl attr msg pos 0 m :=
  ⟨by simp, fun _ _ hj => absurd hj (by simp), fun _ _ => rfl⟩

/-- Writing the `i`-th character at its position prints one character more. -/
theorem Memory.Prints.succ {m m' : Memory} {nl attr : Byte} {msg : List Byte} {pos : Nat → Nat} {i : Nat} {o : U32}
    (hm : m.Prints nl attr msg pos i m') (hwf : m'.wf) (hi : i < msg.length) (ho : o.toNat = pos i)
    (heven : pos i % 2 = 0) : m.Prints nl attr msg pos (i + 1) (m'.putChar nl o msg[i] attr) := by
  obtain ⟨hpos, hcells, hframe⟩ := hm
  have hpos' : ∀ j < i + 1, pos j % 2 = 0 := by
    intro j hj
    rcases Nat.lt_succ_iff_lt_or_eq.1 hj with hj | rfl
    · exact hpos j hj
    · exact heven
  unfold Memory.putChar
  split
  · next hnl =>
    refine ⟨hpos', fun j h hj hch hlater => ?_, fun q hq => hframe q fun j h hj => hq j h (by omega)⟩
    have hji : j ≠ i := by rintro rfl; exact hch hnl
    exact hcells j h (by omega) hch fun k h hjk hk => hlater k h hjk (by omega)
  · next hch =>
    have hread := read_putCell hwf o msg[i] attr
    rw [ho] at hread
    refine ⟨hpos', fun j h hj hjch hlater => ?_, fun q hq => ?_⟩
    · rcases Nat.lt_succ_iff_lt_or_eq.1 hj with hji | rfl
      · have hne := hlater i hi hji (by omega) hch
        have hj0 := hpos j hji
        rw [hread, hread, if_neg (by omega), if_neg (by omega), if_neg (by omega), if_neg (by omega)]
        exact hcells j h hji hjch fun k h hjk hk => hlater k h hjk (by omega)
      · exact ⟨(hread _).trans (if_pos rfl), (hread _).trans (by simp)⟩
    · obtain ⟨hq₀, hq₁⟩ := hq i hi (by omega) hch
      rw [hread, if_neg hq₀, if_neg hq₁]
      exact hframe q fun j h hj => hq j h (by omega)

/-- The operands hold coordinates whose cell is at offset `p`. -/
def State.PointsAt (s : State) (c r : Operand) (p : Nat) : Prop :=
  ∃ cv rv, c.valueIn s.names = some cv ∧ r.valueIn s.names = some rv ∧
    (offsetOf (s.params.readCoord cv) (s.params.readCoord rv)).toNat = p

/-- `t` is what the loop of PRINT_AT over `msg`, started in `s` with `rest` to follow, has made of it before its iteration `i`,
`pos` being the running positions. -/
structure State.PrintedUpTo (s : State) (attr : Byte) (msg : List Byte) (rest : List HostItem) (pos : Nat → Nat) (i : Nat)
    (t : State) : Prop where
  params : t.params = s.params
  faults : t.faults = []
  refusals : t.refusals = []
  wf : t.fb.wf
  prints : s.fb.Prints s.params.chNewline attr msg pos i t.fb
  left : ∃ c r, t.pending = printLoop attr c r (msg.drop i) ++ rest ∧ t.PointsAt c r (pos i)
  cursor : ∀ (j : Nat) (h : j < msg.length), j + 1 = i → 2 * t.cur.toNat = cursorPosition s.params.chNewline msg[j] (pos j)
  sel : 0 < i → t.sel = some s.params.curLoIdx

/-- Before the first iteration nothing is printed, once the operands of the loop hold the coordinates. -/
theorem State.PrintedUpTo.zero {s : State} {attr : Byte} {msg : List Byte} {rest : List HostItem} {pos : Nat → Nat}
    {x : Option Byte} {v : Option U32} {names : List (RespName × U32)} {c r : Operand} {cv rv : U32} (hfaults : s.faults = [])
    (hrefusals : s.refusals = []) (hfb : s.fb.wf) (hc : c.valueIn names = some cv) (hr : r.valueIn names = some rv)
    (hpos : pos 0 = 2 * (clampRow (s.params.readCoord rv) * 80 + clampCol (s.params.readCoord cv))) :
    s.PrintedUpTo attr msg rest pos 0
      { s with sel := x, response := v, names := names, pending := printLoop attr c r msg ++ rest } :=
  ⟨rfl, hfaults, hrefusals, hfb, .zero .., ⟨_, _, rfl, cv, rv, hc, hr, (offsetOf_toNat _ _).trans hpos.symm⟩,
    fun _ _ hj => absurd hj (by simp), fun hj => absurd hj (by simp)⟩

/-- SETCUR of a next offset leaves the cursor at it (R123). -/
theorem twice_cursorValue {p : Params} (h : p.WellFormed) {n : U32} (heven : n.toNat % 2 = 0) (hle : n.toNat ≤ 4000) :
    2 * (cursorValue p n).toNat = n.toNat := by
  have hsize := Params.curSize h
  rw [cursorValue_toNat h, Nat.mod_eq_of_lt (by omega)]
  omega

/-- One iteration of the loop prints the next character and moves the running position and the cursor on. -/
theorem State.PrintedUpTo.succ {s t : State} {attr : Byte} {msg : List Byte} {rest : List HostItem} {pos : Nat → Nat} {i : Nat}
    (h : s.params.WellFormed) (hi : i < msg.length)
    (hpos : pos (i + 1) = nextPosition s.params.chNewline msg[i] (pos i)) (ht : s.PrintedUpTo attr msg rest pos i t) :
    ∃ u, t.RunsTo u ∧ s.PrintedUpTo attr msg rest pos (i + 1) u := by
  obtain ⟨hparams, hfaults, hrefusals, hwf, hprints, ⟨c, r, hpend, cv, rv, hc, hr, ho⟩, -, -⟩ := ht
  rw [List.drop_eq_getElem_cons hi] at hpend
  obtain ⟨hoeven, hole⟩ := offsetOf_range (t.params.readCoord cv) (t.params.readCoord rv)
  obtain ⟨hneven, hnle⟩ :=
    nextOffset_range t.params.chNewline msg[i] (t.params.readCoord cv) (t.params.readCoord rv)
  have hn := nextOffset_toNat t.params.chNewline msg[i] _ _ ho
  have hrun := runsTo_iteration (State.stopped_eq_false hfaults hrefusals) (hparams ▸ h) hpend hc hr rfl rfl
  rw [hparams] at ho hoeven hole hneven hnle hn hrun
  generalize offsetOf (s.params.readCoord cv) (s.params.readCoord rv) = o at ho hoeven hole hneven hnle hn hrun
  generalize nextOffset s.params.chNewline msg[i] o = n at hneven hnle hn hrun
  refine ⟨_, hrun, rfl, hfaults, hrefusals, Memory.putChar_wf hwf _ _ _ (by omega), hprints.succ hwf hi ho (by omega),
    ⟨_, _, rfl, colOf n, rowOf n, ?_, lookupName_bindName_same .., ?_⟩, fun j _ hj => ?_, fun _ => rfl⟩
  · exact (lookupName_bindName_ne _ _ (by decide)).trans (lookupName_bindName_same ..)
  · rw [hpos, nextPosition_eq, ← hn]
    exact offsetOf_colOf_rowOf_toNat h hneven hnle
  · obtain rfl : j = i := Nat.succ_injective hj
    rw [← hn]
    exact twice_cursorValue h hneven hnle

/-- Every iteration of the loop is reached. -/
theorem State.PrintedUpTo.exists_runsTo {s u : State} {attr : Byte} {msg : List Byte} {rest : List HostItem} {pos : Nat → Nat}
    (h : s.params.WellFormed) (hu : s.PrintedUpTo attr msg rest pos 0 u)
    (hpos : ∀ (i : Nat) (h : i < msg.length), pos (i + 1) = nextPosition s.params.chNewline msg[i] (pos i)) {i : Nat}
    (hi : i ≤ msg.length) : ∃ t, u.RunsTo t ∧ s.PrintedUpTo attr msg rest pos i t := by
  induction i with
  | zero => exact ⟨u, .refl u, hu⟩
  | succ i ih =>
    obtain ⟨t, hrun, ht⟩ := ih (by omega)
    exact (ht.succ h hi (hpos i hi)).imp fun _ hnext => hnext.imp_left hrun.trans

/-! ## The statement -/

/-- PRINT_AT of a message ended by CH_NUL prints the characters before it (R162). -/
theorem printAt_of_terminated {p : Params} {msg : List Byte} (hmsg : ∀ b ∈ msg, b ≠ p.chNul) (tail : List Byte)
    (col row : Coord) (attr : Byte) :
    printAt p (msg ++ p.chNul :: tail) col row attr =
      some (resolveCoords col row ++ printLoop attr (columnOperand col) (rowOperand row) msg) := by
  have htake : (msg ++ p.chNul :: tail).takeWhile (fun b => b != p.chNul) = msg := by
    rw [List.takeWhile_append_of_pos (by simpa using hmsg), List.takeWhile_cons_of_neg (by simp), List.append_nil]
  rw [printAt, if_pos (by simp), htake]

/-- Settles O54: the coordinates are resolved to the first position, and each iteration of the loop prints one character and
moves the position on. -/
theorem printFollowsTheNewlines : Obligations.PrintFollowsTheNewlines := by
  rintro s rest msg tail attr col row c r pos ⟨h, hfb, hcur⟩ hfaults hrefusals hpend hcol hrow hne hmsg hzero hpos
  have hlive := State.stopped_eq_false hfaults hrefusals
  have hcall := step_call hlive hpend (printAt_of_terminated hmsg tail col row attr)
  rw [List.append_assoc] at hcall
  obtain ⟨x, v, names, hresolve, hc, hr⟩ := runsTo_resolved hlive h hcur hcol hrow
    (printLoop attr (columnOperand col) (rowOperand row) msg ++ rest)
  obtain ⟨t, hloop, ht⟩ := (State.PrintedUpTo.zero hfaults hrefusals hfb hc hr hzero).exists_runsTo h hpos le_rfl
  obtain ⟨k, hk⟩ := State.RunsTo.head hcall (hresolve.trans hloop)
  obtain ⟨hparams, htf, htr, -, ⟨-, hcells, hframe⟩, ⟨_, _, hleft, -⟩, hcursor, hsel⟩ := ht
  refine ⟨k, t, hk, fun i hi hch hlater => hcells i hi hi hch fun j hj hij _ => hlater j hj hij,
    fun q hq => hframe q fun j hj _ => hq j hj, fun i hi hlast => ?_, hsel (List.length_pos_iff.2 hne), ?_, htf, htr, hparams⟩
  · rw [hcursor i hi hlast, hpos i hi]
    rfl
  · rw [hleft, List.drop_length]
    rfl

end Sys2Proof.Machine

/-! # Host sequences: CLEAR, PRINT_CHARACTER, PRINT_AT and PRINT (45_host_sequences.md R160 to R165)

CLEAR is three steps in closed form. PRINT_CHARACTER resolves its coordinates and takes the first half of an iteration of
PRINT_AT. A message without newlines is one whose running position moves a cell at a time (a case of `printFollowsTheNewlines`),
and one that fits on the grid is one whose position never wraps. -/

namespace Sys2Proof.Machine

/-! ## CLEAR (R164) -/

section
variable {s : State} {rest : List HostItem} (hs : s.stopped = false)
include hs

/-- A command of the host without response names and without a name for its response is the command itself. -/
theorem step_hostCommand {i : Instr} (hp : s.pending = hostCommand i [] none :: rest) :
    step s = exec i { s with pending := rest } :=
  (step_hostWord hs hp (assemble_nil ..) (decode_encode i)).trans (nameResponse_none _)

/-- SETCUR of offset 0 homes the cursor. -/
theorem step_setcur_zero (h : s.params.WellFormed) (hp : s.pending = hostCommand (.setcur 0) [] none :: rest) :
    step s = .next { s with cur := 0, sel := some s.params.curLoIdx, response := none, pending := rest } := by
  have hzero : cursorValue s.params 0 = 0 := by simp [cursorValue]
  have hread : s.params.readOffset 0 = 0 := Params.readOffset_of_le h (by simp)
  rw [step_hostCommand hs hp, exec_setcur_eq (s := { s with pending := rest }) h, hread, hzero]

end

/-- Settles O49: the sequence is written out, FILL writes every cell and SETCUR homes the cursor. -/
theorem clearBlanksAndHomes : Obligations.ClearBlanksAndHomes := by
  rintro s rest ⟨h, hfb, -⟩ hfaults hrefusals hpend
  have hlive := State.stopped_eq_false hfaults hrefusals
  have hcall := step_call hlive hpend rfl
  have hfill := step_hostCommand (s := { s with pending := clearDisplay s.params ++ rest }) hlive rfl
  rw [exec_fill_eq] at hfill
  have hhome := step_setcur_zero (rest := rest)
    (s := { s.fillGrid s.params.chSpace s.params.defaultAttr with
      response := none, pending := hostCommand (.setcur 0) [] none :: rest }) hlive h rfl
  refine ⟨_, (runSteps_succ_of_next hcall).trans ((runSteps_succ_of_next hfill).trans (runSteps_succ_of_next hhome)), rfl, rfl,
    fun k hk => ?_, rfl⟩
  have hread := State.readFb_fillGrid hfb s.params.chSpace s.params.defaultAttr
  exact ⟨(hread _).trans (by rw [if_neg (by omega), if_pos (by omega)]),
    (hread _).trans (by rw [if_neg (by omega), if_neg (by omega)])⟩

/-! ## PRINT_CHARACTER (R161) -/

/-- The part of an iteration that PRINT_CHARACTER shares with PRINT_AT: the character is written and the cursor set to the next
offset. -/
theorem runsTo_wrchar_setcur {s : State} {rest : List HostItem} {c r : Operand} {ch attr : Byte} {cv rv o n : U32}
    (hs : s.stopped = false) (h : s.params.WellFormed) (hp : s.pending = issueWrchar c r ch attr :: issueSetcur :: rest)
    (hc : c.valueIn s.names = some cv) (hr : r.valueIn s.names = some rv)
    (ho : offsetOf (s.params.readCoord cv) (s.params.readCoord rv) = o) (hn : nextOffset s.params.chNewline ch o = n) :
    s.RunsTo { s with
      fb := s.fb.putChar s.params.chNewline o ch attr, cur := cursorValue s.params n, sel := some s.params.curLoIdx,
      response := none, pending := rest, names := bindName s.names .seqN n } := by
  have hread : s.params.readOffset n = n :=
    Params.readOffset_of_le h (by rw [← hn, ← ho]; exact (nextOffset_range ..).2)
  exact .head (step_wrchar_eq hs hp hc hr ho hn)
    (.head (step_setcur_eq hs h rfl (lookupName_bindName_same ..) hread) (.refl _))

/-- Settles O50: the coordinates are resolved, and WRCHAR and SETCUR take their steps. -/
theorem printCharacterWritesAndAdvances : Obligations.PrintCharacterWritesAndAdvances := by
  rintro s rest ch attr col row c r ⟨h, -, hcur⟩ hfaults hrefusals hpend hcol hrow
  have hlive := State.stopped_eq_false hfaults hrefusals
  have hcall := step_call (items := printCharacter ch col row attr) hlive hpend rfl
  rw [printCharacter, List.append_assoc] at hcall
  obtain ⟨x, v, names, hresolve, hc, hr⟩ := runsTo_resolved hlive h hcur hcol hrow
    ([issueWrchar (columnOperand col) (rowOperand row) ch attr, issueSetcur] ++ rest)
  obtain ⟨k, hk⟩ := State.RunsTo.head hcall (hresolve.trans (runsTo_wrchar_setcur hlive h rfl hc hr rfl rfl))
  obtain ⟨heven, hle⟩ := nextOffset_range s.params.chNewline ch (s.params.readCoord c) (s.params.readCoord r)
  have hhalf := Nat.eq_div_of_mul_eq_right two_ne_zero (twice_cursorValue h heven hle)
  exact ⟨k, _, _, _, hk, exec_wrchar_eq s c r ch attr, rfl, rfl, hhalf, rfl, lookupName_bindName_same .., rfl, hfaults,
    hrefusals, rfl⟩

/-! ## PRINT_AT without newlines (R162, R165 items 2 and 3) -/

/-- The positions from `p` on, past the last cell round the last row (R165 item 3). -/
def cyclicPosition (p i : Nat) : Nat := if p + 2 * i < 4000 then p + 2 * i else 3840 + (p + 2 * i - 4000) % 160

theorem cyclicPosition_of_lt {p i : Nat} (h : p + 2 * i < 4000) : cyclicPosition p i = p + 2 * i := if_pos h

/-- One cell on, from the last cell to the start of the last row: the running position of a character that is no newline. -/
theorem cyclicPosition_succ {p : Nat} (heven : p % 2 = 0) (i : Nat) :
    cyclicPosition p (i + 1) = if cyclicPosition p i + 2 < 4000 then cyclicPosition p i + 2 else 3840 := by
  unfold cyclicPosition
  split_ifs <;> omega

/-- Settles O53: the case of O54 with no newline. -/
theorem printPastTheEndCyclesTheLastRow : Obligations.PrintPastTheEndCyclesTheLastRow := by
  intro s rest msg tail attr col row c r p pos hinv hfaults hrefusals hpend hcol hrow hp hne hmsg hpos
  obtain rfl : pos = cyclicPosition p := funext hpos
  obtain ⟨heven, hle⟩ := offsetOf_range (s.params.readCoord c) (s.params.readCoord r)
  rw [offsetOf_toNat, ← hp] at heven hle
  have hch (i : Nat) (hi : i < msg.length) : msg[i] ≠ s.params.chNewline := (hmsg _ (List.getElem_mem hi)).1
  have hzero : cyclicPosition p 0 = p := cyclicPosition_of_lt (by omega)
  obtain ⟨k, t, hk, hcells, hframe, hcursor, hsel, hleft⟩ := printFollowsTheNewlines s rest msg tail attr col row c r _ hinv
    hfaults hrefusals hpend hcol hrow hne (fun b hb => (hmsg b hb).2) (hzero.trans hp)
    fun i hi => by rw [if_neg (hch i hi), cyclicPosition_succ heven]
  have hlen := List.length_pos_iff.2 hne
  have hend := hcursor (msg.length - 1) (by omega) (by omega)
  rw [if_neg (hch _ _)] at hend
  exact ⟨k, t, hk, fun i hi hlater => hcells i hi (hch i hi) fun j hj hij _ => hlater j hij hj,
    fun q hq => hframe q fun i hi _ => hq i hi, hend, hsel, hleft⟩

/-- Settles O52: the case of O53 in which the position never wraps. -/
theorem printAdvancesTwoBytesPerCharacter : Obligations.PrintAdvancesTwoBytesPerCharacter := by
  intro s rest msg tail attr col row c r p hinv hfaults hrefusals hpend hcol hrow hp hne hmsg hfits
  have hpos (i : Nat) (hi : i < msg.length) : cyclicPosition p i = p + 2 * i := cyclicPosition_of_lt (by omega)
  obtain ⟨k, t, hk, hcells, hframe, hcursor, hsel, hleft⟩ := printPastTheEndCyclesTheLastRow s rest msg tail attr col row c r p
    (cyclicPosition p) hinv hfaults hrefusals hpend hcol hrow hp hne hmsg fun _ => rfl
  have hlen := List.length_pos_iff.2 hne
  rw [hpos _ (by omega)] at hcursor
  refine ⟨k, t, hk, fun j hj => ?_, fun q hq => hframe q fun i hi => ?_, by omega, hsel, hleft⟩
  · have hcell := hcells j hj fun i hji hi => by rw [hpos i hi, hpos j hj]; omega
    rwa [hpos j hj] at hcell
  · rw [hpos i hi]
    omega

/-! ## PRINT_AT of an empty message (R162) -/

/-- Resolving the coordinates, whatever CUR holds, reads the cursor where a coordinate is Current and else issues nothing. -/
theorem runsTo_resolveCoords {s : State} (hs : s.stopped = false) (h : s.params.WellFormed) (col row : Coord)
    (rest : List HostItem) :
    ∃ x v names, State.RunsTo { s with pending := resolveCoords col row ++ rest }
        { s with sel := x, response := v, names := names, pending := rest } ∧
      (col = .current ∨ row = .current → x = some s.params.curHiIdx) ∧ (col ≠ .current → row ≠ .current → x = s.sel) := by
  have hget (next : List HostItem) := step_getcur_eq (s := { s with pending := issueGetcur :: next }) hs h rfl
  have hO := lookupName_bindName_same s.names .seqO (cursorOffset (highByte s.cur) (lowByte s.cur))
  match col, row with
  | .at _, .at _ => exact ⟨s.sel, s.response, s.names, .refl _, by simp, fun _ _ => rfl⟩
  | .at _, .current =>
    exact ⟨_, _, _, .head (hget _) (.head (step_issueRowof hs rfl hO) (.refl _)), fun _ => rfl, by simp⟩
  | .current, .at _ =>
    exact ⟨_, _, _, .head (hget _) (.head (step_issueColof hs rfl hO) (.refl _)), fun _ => rfl, by simp⟩
  | .current, .current =>
    have hO' {v : U32} := (lookupName_bindName_ne _ (n := .seqC) v (by decide)).trans hO
    exact ⟨_, _, _, .head (hget _) (.head (step_issueColof hs rfl hO) (.head (step_issueRowof hs rfl hO') (.refl _))),
      fun _ => rfl, by simp⟩

/-- Settles O55: only the resolution is written out, and it selects a cursor register at most. -/
theorem printOfAnEmptyMessage : Obligations.PrintOfAnEmptyMessage := by
  intro s rest tail attr col row h hfaults hrefusals hpend
  have hlive := State.stopped_eq_false hfaults hrefusals
  have hcall := step_call hlive hpend (printAt_of_terminated (msg := []) (by simp) tail col row attr)
  rw [printLoop, List.append_nil] at hcall
  obtain ⟨x, v, names, hresolve, hcurrent, hexplicit⟩ := runsTo_resolveCoords hlive h col row rest
  obtain ⟨k, hk⟩ := State.RunsTo.head hcall hresolve
  exact ⟨k, _, hk, rfl, rfl, hcurrent, hexplicit, rfl, hfaults, hrefusals, rfl⟩

/-! ## PRINT, and messages that cannot be passed (R162, R163) -/

/-- A message that holds CH_NUL can be passed. -/
theorem printAt_of_mem {p : Params} {msg : List Byte} (hnul : p.chNul ∈ msg) (col row : Coord) (attr : Byte) :
    printAt p msg col row attr = some (resolveCoords col row ++
      printLoop attr (columnOperand col) (rowOperand row) (msg.takeWhile fun b => b != p.chNul)) :=
  if_pos (List.contains_iff_mem.2 hnul)

/-- Settles O51: both calls are written out as the same commands. -/
theorem printIsPrintAtTheCursor : Obligations.PrintIsPrintAtTheCursor := by
  intro s rest msg attr hfaults hrefusals hnul
  have hlive := State.stopped_eq_false hfaults hrefusals
  have hprint := printAt_of_mem hnul .current .current attr
  have hstep (q : HostSequence) (hq : expandSequence s.params q = printAt s.params msg .current .current attr) :=
    step_call (s := { s with pending := .call q :: rest }) hlive rfl (hq.trans hprint)
  rw [hstep (.print msg attr) rfl, hstep (.printAt msg .current .current attr) rfl]

theorem printAt_of_unterminated {p : Params} {msg : List Byte} (hmsg : ∀ b ∈ msg, b ≠ p.chNul) (col row : Coord) (attr : Byte) :
    printAt p msg col row attr = none :=
  if_neg fun hnul => hmsg _ (List.contains_iff_mem.1 hnul) rfl

/-- Settles O56: neither call can be written out. -/
theorem unterminatedMessageIsNotPassed : Obligations.UnterminatedMessageIsNotPassed := by
  intro s rest msg attr col row hfaults hrefusals hmsg hpend
  have hlive := State.stopped_eq_false hfaults hrefusals
  rcases hpend with hpend | hpend
  · exact step_of_unpassable hlive hpend (printAt_of_unterminated hmsg col row attr)
  · exact step_of_unpassable hlive hpend (printAt_of_unterminated hmsg .current .current attr)

end Sys2Proof.Machine

/-! # Exceptions: when a command completes, and what a stop leaves (60_exceptions.md R180 to R193)

Each rule that can stop has one equivalence saying where it gives a result (`portWrite8_ok_iff` and its fellows), and a command
completes exactly where its rule gives one. A stop leaves what `stopWith_fault_left` and `stopWith_refused_left` say; that it is
never final comes from the record it extends or, where it records nothing, from `step_of_final`. -/

namespace Sys2Proof.Machine

/-! ## Where a rule gives a result (R80 to R89, R140) -/

/-- SEL names one of the two cursor registers (R23). -/
abbrev State.SelectsCursor (s : State) : Prop := s.sel = some s.params.curHiIdx ∨ s.sel = some s.params.curLoIdx

/-- The data port takes a byte exactly while SEL names a cursor register (R81, R85). -/
theorem dataWrite_ok_iff {s : State} (h : s.params.WellFormed) (v : Byte) : (∃ t, dataWrite v s = .ok t) ↔ s.SelectsCursor := by
  constructor
  · rintro ⟨t, ht⟩
    exact (dataWrite_cases ht).imp And.left And.left
  · rintro (hs | hs)
    · exact ⟨_, dataWrite_high hs v⟩
    · exact ⟨_, dataWrite_low h hs v⟩

/-- The data port answers a byte while SEL names a cursor register (R83, R85). -/
theorem dataRead_ok {s : State} (h : s.params.WellFormed) (hs : s.SelectsCursor) : ∃ b, dataRead s = .ok b := by
  rcases hs with hs | hs
  · exact ⟨_, dataRead_high hs⟩
  · exact ⟨_, dataRead_low h hs⟩

/-- The ports that take a byte: the selector port always, the data port while SEL names a cursor register (R80). -/
theorem portWrite8_ok_iff {s : State} (h : s.params.WellFormed) (p : U16) (v : Byte) :
    (∃ t, portWrite8 p v s = .ok t) ↔ p = s.params.selPort ∨ p = s.params.dataPort ∧ s.SelectsCursor := by
  constructor
  · rintro ⟨t, ht⟩
    exact (portWrite8_cases ht).imp And.left fun ⟨_, hdata, hw⟩ => ⟨hdata, (dataWrite_ok_iff h v).1 ⟨t, hw⟩⟩
  · rintro (rfl | ⟨rfl, hs⟩)
    · exact ⟨_, portWrite8_selPort v s⟩
    · rw [portWrite8_dataPort h.1.symm rfl]
      exact (dataWrite_ok_iff h v).2 hs

/-- The port that answers a byte: the data port while SEL names a cursor register (R82, R84). -/
theorem portRead8_ok_iff {s : State} (h : s.params.WellFormed) (p : U16) :
    (∃ b, portRead8 p s = .ok b) ↔ p = s.params.dataPort ∧ s.SelectsCursor := by
  constructor
  · rintro ⟨b, hb⟩
    obtain ⟨hdata, hs⟩ := portRead8_cases hb
    exact ⟨hdata, hs.imp And.left And.left⟩
  · rintro ⟨hdata, hs⟩
    rw [portRead8_dataPort hdata]
    exact dataRead_ok h hs

/-- A byte is written exactly inside the region (R87, R89). -/
theorem memWrite_ok_iff (a : U32) (v : Byte) (s : State) : (∃ t, memWrite a v s = .ok t) ↔ s.inFramebuffer a 1 :=
  ⟨fun ⟨_, ht⟩ => (memWrite_cases ht).1, fun h => ⟨_, memWrite_eq h v⟩⟩

/-- A byte is read exactly inside the region (R88, R89). -/
theorem memRead_ok_iff (a : U32) (s : State) : (∃ b, memRead a s = .ok b) ↔ s.inFramebuffer a 1 :=
  ⟨fun ⟨_, hb⟩ => (memRead_cases hb).1, fun h => ⟨_, memRead_of_index (if_pos h)⟩⟩

/-- A cell is written exactly at an even offset up to 3998 (R140). -/
theorem writeCell_ok_iff (o : U32) (ch attr : Byte) (s : State) :
    (∃ t, writeCell o ch attr s = .ok t) ↔ o.toNat % 2 = 0 ∧ o.toNat ≤ 3998 := by
  constructor
  · rintro ⟨t, ht⟩
    obtain ⟨heven, hle, -⟩ := writeCell_cases ht
    exact ⟨heven, hle⟩
  · rintro ⟨heven, hle⟩
    exact ⟨_, writeCell_eq heven hle ch attr s⟩

/-! ## When a command completes (R180) -/

/-- A command that delivers no response completes exactly where its rule gives a state. -/
theorem conclude_noResponse_completes_iff {w : CommandWord} {s : State} {x : Except Stop State} :
    (∃ t, conclude w s (noResponse x) = .next t) ↔ ∃ u, x = .ok u := by
  constructor
  · rintro ⟨t, ht⟩
    obtain ⟨u, hu, -⟩ := conclude_noResponse_eq_next.1 ht
    exact ⟨u, hu⟩
  · rintro ⟨u, hu⟩
    exact ⟨_, conclude_noResponse_eq_next.2 ⟨u, hu, rfl⟩⟩

/-- A command that answers a byte completes exactly where there is one to answer. -/
theorem conclude_respondByte_completes_iff {w : CommandWord} {s : State} {x : Except Stop Byte} :
    (∃ t, conclude w s (respondByte s x) = .next t) ↔ ∃ b, x = .ok b := by
  constructor
  · rintro ⟨t, ht⟩
    obtain ⟨u, v, hu, -⟩ := conclude_eq_next.1 ht
    obtain ⟨b, hb, -⟩ := respondByte_eq_ok.1 hu
    exact ⟨b, hb⟩
  · rintro ⟨b, hb⟩
    exact ⟨_, conclude_respondByte_of_ok hb⟩

/-! ## The state a stop leaves (R181, R182, R184, R193) -/

/-- A recorded fault is never final. -/
theorem State.not_final_recordFault (s : State) (r : FaultReason) (w : CommandWord) (o : Option U32) :
    ¬ (s.recordFault r w o).Final := by
  rintro ⟨-, hfaults, -⟩
  simp at hfaults

/-- A recorded refusal is never final. -/
theorem State.not_final_recordRefusal (s : State) (r : RefusalReason) : ¬ (s.recordRefusal r).Final := by
  rintro ⟨-, -, hrefusals⟩
  simp at hrefusals

/-- From a final state nothing is issued, so the step is no stop (R193; log 9). -/
theorem step_of_final {s : State} (h : s.Final) : step s = .next s := by
  obtain ⟨hpending, hfaults, hrefusals⟩ := h
  exact step_of_idle (State.stopped_eq_false hfaults hrefusals) hpending

/-! ## Another agent (R183, R188) -/

/-- The step that takes a command of another agent refuses it once the word has decoded. -/
theorem step_command_other {s : State} {rest : List HostItem} {k : Nat} {w : CommandWord} {into : Option RespName} {i : Instr}
    (hs : s.stopped = false)
    (hp : s.pending = .issue { agent := .other k, request := .command w [], into := into } :: rest) (hd : decode w = .ok i) :
    step s = refuse .secondAgent { s with pending := rest } := by
  rw [step_of_item hs hp]
  simp [takeItem, issueRequest, issueWord, hd, nameResponse_refuse]

/-- The step that takes a wide memory access of another agent refuses it, for its agent and not for its width (log 13). -/
theorem step_wideMem_other {s : State} {rest : List HostItem} {k : Nat} {addr : U32} {more : Nat} {into : Option RespName}
    (hs : s.stopped = false)
    (hp : s.pending = .issue { agent := .other k, request := .wideMem addr more, into := into } :: rest) :
    step s = refuse .secondAgent { s with pending := rest } :=
  step_of_item hs hp

/-! ## The statements -/

/-- Settles O37: a command that can stop completes exactly where its rule gives a result, and each of the others has a closed
form. -/
theorem commandsCompleteExactlyWithinTheBlock : Obligations.CommandsCompleteExactlyWithinTheBlock := by
  intro s hp
  refine ⟨fun port v => ?_, fun port => ?_, fun addr v => ?_, fun addr => ?_, fun off ch attr => ?_, ?_⟩
  · exact conclude_noResponse_completes_iff.trans (portWrite8_ok_iff hp _ v)
  · exact conclude_respondByte_completes_iff.trans (portRead8_ok_iff hp _)
  · exact conclude_noResponse_completes_iff.trans (memWrite_ok_iff _ v s)
  · exact conclude_respondByte_completes_iff.trans (memRead_ok_iff _ s)
  · exact conclude_noResponse_completes_iff.trans (writeCell_ok_iff _ ch attr s)
  · rintro _ (⟨c, r, rfl⟩ | ⟨o, rfl⟩ | ⟨o, rfl⟩ | rfl | ⟨o, rfl⟩ | ⟨c, r, ch, attr, rfl⟩ | ⟨ch, attr, rfl⟩)
    · exact ⟨_, answers_offset s c r⟩
    · exact ⟨_, answers_rowof (rowOf_toNat _)⟩
    · exact ⟨_, answers_colof (colOf_toNat _)⟩
    · exact ⟨_, exec_getcur_eq hp⟩
    · exact ⟨_, exec_setcur_eq hp o⟩
    · exact ⟨_, exec_wrchar_eq s c r ch attr⟩
    · exact ⟨_, exec_fill_eq s ch attr⟩

/-- Settles O38: a command that does not complete ends at a stop in the state it began in, with its own word. -/
theorem stoppedCommandsOnlyRecord : Obligations.StoppedCommandsOnlyRecord := by
  intro i s
  rcases exec_next_or_stop i s with ⟨t, ht⟩ | ⟨e, he⟩
  · rw [ht]
    exact ⟨nofun, nofun⟩
  · refine ⟨fun f hf => ?_, fun r hr => stopWith_refused_left (he.symm.trans hr)⟩
    obtain ⟨r, o, hleft⟩ := stopWith_fault_left (he.symm.trans hf)
    exact ⟨{ reason := r, word := encode i, off := o }, rfl, hleft⟩

/-- Settles O39: a stop extends a record, or leaves the state of the step, which is not final since the step from a final state is
no stop. -/
theorem everyStopIsPrecise : Obligations.EveryStopIsPrecise := by
  refine fun s => ⟨fun f h => ?_, fun r h => ?_⟩
  · rcases step_fault_left h with hleft | ⟨rest, k, r, w, o, hleft⟩ <;> rw [hleft]
    · exact ⟨rfl, rfl, rfl, rfl, fun hfinal => nomatch h.symm.trans (step_of_final hfinal)⟩
    · exact ⟨rfl, rfl, rfl, rfl, State.not_final_recordFault _ r w o⟩
  · rcases step_refused_left h with hleft | ⟨rest, k, x, hleft⟩
    · exact ⟨s, hleft, rfl, rfl, rfl, rfl, fun hfinal => nomatch h.symm.trans (step_of_final hfinal)⟩
    · exact ⟨_, hleft, rfl, rfl, rfl, rfl, State.not_final_recordRefusal _ x⟩

/-- Settles O9: the refusal is recorded in a mark that was empty. -/
theorem secondAgentIsRefused : Obligations.SecondAgentIsRefused := by
  intro s rest k into hf hr
  have hlive := State.stopped_eq_false hf hr
  have hrefuse : refuse .secondAgent { s with pending := rest } =
      .refused (.secondAgent { s with pending := rest, refusals := [.secondAgent] }) := by
    simp [refuse, State.recordRefusal, hr]
  exact ⟨fun w i hp hd => (step_command_other hlive hp hd).trans hrefuse,
    fun addr more hp => (step_wideMem_other hlive hp).trans hrefuse⟩

/-- Settles O11: a state with an entry in a record has stopped. -/
theorem stoppedMachineTakesNoCommand : Obligations.StoppedMachineTakesNoCommand :=
  fun s h => step_of_stopped (s.stopped_iff.2 h)

/-- Settles O12: such a state is final. -/
theorem idleStepChangesNothing : Obligations.IdleStepChangesNothing :=
  fun _ hf hr hp => step_of_final ⟨hp, hf, hr⟩

end Sys2Proof.Machine

/-! # Reset: the state at the start of a run (R200) -/

namespace Sys2Proof

open Machine

/-- At R5's CUR_WIDTH the cursor register keeps all of what is written (R22). -/
theorem Params.keepCur_of_width {p : Params} (h : p.curWidth = 16) (v : U16) : p.keepCur v = v := zextN_of_le h.ge v

namespace Machine

/-- At reset no offset is listed, so every byte of FB reads as its draw (R24, R95). -/
theorem State.readFb_resetWith (p : Params) (i : Nat) : (State.resetWith p).readFb i = Config.resetFb i := by
  rw [State.readFb, State.resetWith_fb, Memory.read_nil, unlisted]

/-- Settles O42: the fields are as `State.resetWith` gives them, CUR is what the register keeps of its draw, and FB reads as the
draws. -/
theorem resetState : Obligations.ResetState := fun p =>
  ⟨State.resetWith_sel p, State.resetWith_faults p, State.resetWith_refusals p, p.keepCur_toNat Config.resetCur,
    fun h => Params.keepCur_of_width h Config.resetCur, fun i _ => State.readFb_resetWith p i⟩

end Machine

end Sys2Proof
